-- ==== Sys2Proof/Word.lean ====
section
/-! DEFINITION. The word type of the block: every datum it moves is an 8-bit unsigned byte (00_scope.md R8, R10). -/

namespace Sys2Proof

/-- A byte, bit 0 the least significant (R10). -/
abbrev Byte := BitVec 8

end Sys2Proof
end

