-- ==== Sys2Proof/Config.lean ====
section
/-! DEFINITION. What is fixed for a block: the parameters of 00_scope.md R8 (each literal a named constant with the
document's value, R9 and D28), the parameters the spec leaves OPEN, and the free values (constants with no body, of which
nothing can be proved). -/

namespace Sys2Proof

/-- The output state of the line driver (10_state.md R19). -/
inductive LineMode where
  /-- The line is released (tri-stated). -/
  | input
  /-- The line is pulled to ground. -/
  | driveLow
  /-- The line is driven high. -/
  | driveHigh
  deriving DecidableEq, Repr, Inhabited

/-- What one CRC-retry attempt repeats (43_dispatcher.md R81, D10). -/
inductive RetryScope where
  /-- Every attempt repeats the reset, the ROM write, the wait and the read. -/
  | wholeTransaction
  /-- Only the read is repeated. -/
  | readOnly
  deriving DecidableEq, Repr

namespace Config

/-! ### Capacities and counts (R8). UNVERIFIED: the literals are unaudited (R9, entry 20). -/

/-- `RECORD_CAP`: payload bytes of a ResultRecord. -/
abbrev recordCap : Nat := 8
/-- `QUEUE_CAP`: records the Result Queue holds. -/
abbrev queueCap : Nat := 128
/-- `CMD_BUF_CAP`: bytes of the CommandBuffer. -/
abbrev cmdBufCap : Nat := 512
/-- `CRC_RETRIES`: most read attempts when CrcResendMode is true. -/
abbrev crcRetries : Nat := 20
/-- `WS_MAX_PAYLOAD`: user bytes `WS` appends. -/
abbrev wsMaxPayload : Nat := 3

/-! ### Durations (R8), microseconds but for `retrySleepMs`. -/

/-- `RETRY_SLEEP_MS`: milliseconds between two attempts. -/
abbrev retrySleepMs : Nat := 1000
/-- `T_RST_LOW`. -/
abbrev tRstLow : Nat := 500
/-- `T_RST_SETTLE`. -/
abbrev tRstSettle : Nat := 500
/-- `T_W1_LOW`. -/
abbrev tW1Low : Nat := 7
/-- `T_W1_REL`. -/
abbrev tW1Rel : Nat := 60
/-- `T_W0_LOW`. -/
abbrev tW0Low : Nat := 60
/-- `T_W0_REL`. -/
abbrev tW0Rel : Nat := 15
/-- `T_BYTE_GAP`. -/
abbrev tByteGap : Nat := 30
/-- `T_R_LOW`. -/
abbrev tRLow : Nat := 9
/-- `T_R_SAMPLE`. -/
abbrev tRSample : Nat := 15
/-- `T_R_REC`. -/
abbrev tRRec : Nat := 60
/-- `T_RA_WAIT`. -/
abbrev tRaWait : Nat := 500
/-- `T_WS_WAIT`. -/
abbrev tWsWait : Nat := 600
/-- `T_RS_WAIT`. -/
abbrev tRsWait : Nat := 600

/-- `RETRY_SCOPE`: the value the spec takes (R8, R81). The meanings take it as an argument, so both readings are modelled. -/
def retryScope : RetryScope := .wholeTransaction

/-! ### OPEN parameters and free values: no body, so a claim holds whatever they are. -/

/-- `CRC8_TABLE` (42_crc8.md R75, D18): any total function from bytes to bytes (entry 7). -/
opaque crc8Table : Byte → Byte

/-- `INIT_LINE_MODE` (10_state.md R32, D16): any of the three modes (entry 8). -/
opaque initLineMode : LineMode

/-- The byte of the command buffer at offset `a` that no write has filled (10_state.md R26, R32; 93_implementation_defined.md:
any value; entry 10). -/
opaque bufferByte : Nat → Byte

/-- The bit the slave answers at draw `n`, once its coming answers (`State.slave`) are used up (R62, D19; entry 4). -/
opaque slaveBit : Nat → Bool

/-- The level read at draw `n` while the block itself drives the line (R62, D19; entry 5). -/
opaque drivenLevel : Nat → Bool

/-- The mode the line is left in by a teardown at draw `n` (70_reset_and_hazards.md R123, D36; entry 14). -/
opaque teardownMode : Nat → LineMode

end Config

end Sys2Proof
end

