-- ==== Sys2Proof/Syntax.lean ====
section
/-! DEFINITION. The commands: one constructor per row of spec/opcode_table.json, in the decoder's priority order
(30_encoding.md R51, R52). -/

namespace Sys2Proof

/-- A command of the dispatcher (R51). -/
inductive Instr where
  /-- `r`: bus reset, then echo (R83). -/
  | r
  /-- `h`: drive the line high, then echo (R84). -/
  | h
  /-- `l`: drive the line low, then echo (R85). -/
  | l
  /-- `i`: release the line, then echo (R86). -/
  | i
  /-- `ECRC`: enable CRC-resend mode (R87). -/
  | ecrc
  /-- `DCRC`: disable CRC-resend mode (R88). -/
  | dcrc
  /-- `FLUSH`: discard all queued results (R89). -/
  | flush
  /-- `SIZE`: queue the queue's length (R90). -/
  | size
  /-- `RA`: read address (R91). -/
  | ra
  /-- `WS`: write scratchpad with the payload `p` of 0 to 3 bytes (R50, R92). -/
  | ws (p : List Byte)
  /-- `RS`: read scratchpad (R93). -/
  | rs
  /-- `CT`: start a conversion (R94). -/
  | ct
  /-- `0`: drive the line low, no echo (R95). -/
  | zero
  /-- `1`: drive the line high, no echo (R96). -/
  | one
  /-- Any byte string no pattern selects (R53, R97). -/
  | noMatch
  deriving DecidableEq, Repr

end Sys2Proof
end

