-- ==== Sys2Proof/WellFormed.lean ====
section
/-! DEFINITION. Well-formed commands: the only operand is the payload of `WS`, of at most `WS_MAX_PAYLOAD` bytes
(30_encoding.md R50, R51). -/

namespace Sys2Proof

/-- The command is one the decoder can return (R51: `CMD_WS(p : byte list, len ≤ 3)`). -/
def Instr.wf : Instr → Bool
  | .ws p => decide (p.length ≤ Config.wsMaxPayload)
  | .r => true
  | .h => true
  | .l => true
  | .i => true
  | .ecrc => true
  | .dcrc => true
  | .flush => true
  | .size => true
  | .ra => true
  | .rs => true
  | .ct => true
  | .zero => true
  | .one => true
  | .noMatch => true

end Sys2Proof
end

