-- ==== Sys2Proof/Decode.lean ====
section
/-! DEFINITION. The decoder, total on byte strings (30_encoding.md R46 to R53), the encoder, and the reading of one
word of spec/opcode_table.json. -/

namespace Sys2Proof

/-! ### Tokens: the selecting bytes of R52, in ASCII (R54) -/

/-- `r` -/
def tokR : List Byte := [0x72]
/-- `h` -/
def tokH : List Byte := [0x68]
/-- `l` -/
def tokL : List Byte := [0x6C]
/-- `i` -/
def tokI : List Byte := [0x69]
/-- `ECRC` -/
def tokEcrc : List Byte := [0x45, 0x43, 0x52, 0x43]
/-- `DCRC` -/
def tokDcrc : List Byte := [0x44, 0x43, 0x52, 0x43]
/-- `FLUSH` -/
def tokFlush : List Byte := [0x46, 0x4C, 0x55, 0x53, 0x48]
/-- `SIZE` -/
def tokSize : List Byte := [0x53, 0x49, 0x5A, 0x45]
/-- `RA` -/
def tokRa : List Byte := [0x52, 0x41]
/-- `WS` -/
def tokWs : List Byte := [0x57, 0x53]
/-- `RS` -/
def tokRs : List Byte := [0x52, 0x53]
/-- `CT` -/
def tokCt : List Byte := [0x43, 0x54]
/-- `0` -/
def tokZero : List Byte := [0x30]
/-- `1` -/
def tokOne : List Byte := [0x31]

/-- The fourteen patterns in priority order (R49, R52). -/
def tokens : List (List Byte) :=
  [tokR, tokH, tokL, tokI, tokEcrc, tokDcrc, tokFlush, tokSize, tokRa, tokWs, tokRs, tokCt, tokZero, tokOne]

/-- A token matches when the buffer has at least its length and agrees with it byte for byte; later bytes are ignored
(R47, R48). -/
def hasToken (tok bs : List Byte) : Bool := tok.isPrefixOf bs

/-- The `WS` operand: `take(WS_MAX_PAYLOAD, cb[2..n))`, raw bytes (R50). -/
def wsPayload (bs : List Byte) : List Byte := (bs.drop 2).take Config.wsMaxPayload

/-- The decoder of R49, on the accepted bytes `cb[0..n)`: first match wins. -/
def decode (bs : List Byte) : Instr :=
  if hasToken tokR bs then .r
  else if hasToken tokH bs then .h
  else if hasToken tokL bs then .l
  else if hasToken tokI bs then .i
  else if hasToken tokEcrc bs then .ecrc
  else if hasToken tokDcrc bs then .dcrc
  else if hasToken tokFlush bs then .flush
  else if hasToken tokSize bs then .size
  else if hasToken tokRa bs then .ra
  else if hasToken tokWs bs then .ws (wsPayload bs)
  else if hasToken tokRs bs then .rs
  else if hasToken tokCt bs then .ct
  else if hasToken tokZero bs then .zero
  else if hasToken tokOne bs then .one
  else .noMatch

/-- The shortest byte string of a command (R52); `NOMATCH` is written as the empty string (R53). -/
def encode : Instr → List Byte
  | .r => tokR
  | .h => tokH
  | .l => tokL
  | .i => tokI
  | .ecrc => tokEcrc
  | .dcrc => tokDcrc
  | .flush => tokFlush
  | .size => tokSize
  | .ra => tokRa
  | .ws p => tokWs ++ p
  | .rs => tokRs
  | .ct => tokCt
  | .zero => tokZero
  | .one => tokOne
  | .noMatch => []

/-! ### One word of spec/opcode_table.json -/

/-- The `n` bytes of the number `w`, most significant first: the table writes `cb[0], cb[1], ...` "most significant first"
(DEDUCED from the table's byte_order field, entry 1). -/
def bytesOfWord : Nat → Nat → List Byte
  | 0, _ => []
  | n + 1, w => BitVec.ofNat 8 (w / 256 ^ n) :: bytesOfWord n w

/-- The longest command has five significant bytes (`FLUSH`, `WS` with a full payload). -/
def longestCommand : Nat := 5

/-- The buffer for a table word of `nbits` bits: its bytes, then zero bytes up to the longest command (entry 1). -/
def tableBytes (nbits w : Nat) : List Byte :=
  let bs := bytesOfWord ((nbits + 7) / 8) w
  bs ++ List.replicate (longestCommand - bs.length) 0

/-- The command the decoder reads from a table word. -/
def decodeTableWord (nbits w : Nat) : Option Instr := some (decode (tableBytes nbits w))

end Sys2Proof
end

