-- ==== Sys2Proof/Machine/Crc.lean ====
section
/-! DEFINITION. The CRC8 lookup-table validator (42_crc8.md R75 to R78). The table is OPEN: no law here depends on it. -/

namespace Sys2Proof.Machine

/-- `compute` over a table `T`: fold the bytes in list order from 0 (R76). -/
def crc8With (T : Byte → Byte) (xs : List Byte) : Byte := xs.foldl (fun c x => T (c ^^^ x)) 0

/-- `crc8` over the block's own table (R75, R76). -/
def crc8 (xs : List Byte) : Byte := crc8With Config.crc8Table xs

/-- `crcOk(rx)`: the CRC8 of every byte but the last equals the last (R77); an empty list has no last byte. -/
def crcMatches (rx : List Byte) : Bool :=
  match rx.getLast? with
  | some b => crc8 rx.dropLast == b
  | none => false

end Sys2Proof.Machine
end

