-- ==== Sys2Proof/Machine/State.lean ====
section
/-! DEFINITION. The state of the block (10_state.md R18 to R32), the reasons a step can stop, and the state after
initialisation. Plain data only. -/

namespace Sys2Proof.Machine

/-- One event of the line trace (R28). -/
inductive Event where
  /-- The line was driven low (R58). -/
  | driveLow
  /-- The line was driven high (R59). -/
  | driveHigh
  /-- The line was released to input (R60). -/
  | release
  /-- A busy-wait of `us` microseconds (R63). -/
  | delay (us : Nat)
  /-- A sleep of `ms` milliseconds (R64). -/
  | sleep (ms : Nat)
  /-- A level read that returned `b` (R61). -/
  | sample (b : Bool)
  /-- The atomic timing section opened (R65). -/
  | atomicBegin
  /-- The atomic timing section closed (R65). -/
  | atomicEnd
  deriving DecidableEq, Repr

/-- A ResultRecord: eight data bytes of which the first `size` are meaningful (R24). -/
structure Record where
  data : List Byte
  size : Nat
  deriving DecidableEq, Repr

/-- The store behind the command buffer: the bytes written so far by offset, offsets strictly rising (R26, R33).
An unlisted offset holds a free value (entry 10). -/
abbrev Memory := List Host.Cell

/-- A host call (R7). `copyFails` is the draw of R107 and R108: whether the boundary copy of this call fails (entry 6). -/
inductive HostCall where
  /-- `open()` (R104). -/
  | openSession
  /-- `release()` (R105). -/
  | releaseSession
  /-- `write(bytes)` (R107). -/
  | write (bytes : List Byte) (copyFails : Bool)
  /-- `read(capacity)` (R108). -/
  | read (capacity : Nat) (copyFails : Bool)
  deriving DecidableEq, Repr

/-- A move of the host (entry 2). -/
inductive HostEvent where
  /-- One host call, issued when the block is idle (R103). -/
  | call (c : HostCall)
  /-- A call issued while another is in flight: a violated precondition (R42, R103, R131; entry 16). -/
  | overlap (first second : HostCall)
  /-- The driver's teardown (R123). -/
  | teardown
  deriving DecidableEq, Repr

/-- The sequencer position (R27). -/
inductive SeqPos where
  /-- No host call in progress. -/
  | idle
  /-- The call in progress, and the index of its next primitive step. -/
  | busy (call : HostCall) (step : Nat)
  deriving DecidableEq, Repr

/-- The host-visible error kinds (60_exceptions.md R110, codes 1 to 3). -/
inductive ErrorKind where
  /-- A second open (code 1). -/
  | sessionBusy
  /-- A push on a full queue (code 2). -/
  | queueFull
  /-- A boundary copy failed (code 3). -/
  | copyFault
  deriving DecidableEq, Repr

/-- What a host call handed back. -/
inductive CallResult where
  /-- No call has ended yet (entry 12). -/
  | none
  /-- `open` or `release` succeeded. -/
  | ok
  /-- `write` accepted `n` bytes (R79). -/
  | count (n : Nat)
  /-- `read` returned these bytes of a record (R108). -/
  | data (bytes : List Byte)
  /-- `read` found no record: zero bytes, status QueueEmpty (R108, R110). -/
  | empty
  /-- The call ended in an error (R113). -/
  | error (e : ErrorKind)
  deriving DecidableEq, Repr

/-- The named stops of 60_exceptions.md R110 and of the rules that leave the machine no step. A faulted state has no
further step (R14). -/
inductive Fault where
  /-- F1: `AtomicBegin` while the section is held, `AtomicEnd` while it is not, `Sleep` while it is held (R64, R65), or a host
  call begun while it is held (R66). Raised by those primitives and by `startCall`. Safe. -/
  | atomicViolation
  /-- F2: two overlapping writes or two overlapping reads (R42, R131). Raised by `overlapFault`. Safe. -/
  | spscViolation
  /-- The line is not owned, so the block has no operating state (R23, R57, R121, R123). Raised by the line primitives and by
  `nextMove`. Safe. -/
  | noOperatingState
  /-- A write or read with no open session: the host has no such move (R106). Raised by `startCall`. Safe. -/
  | noSession
  /-- Another call while one is in flight: the host has no such move (R103). Raised by `overlapFault`. Safe. -/
  | callInFlight
  /-- A sequencer position past the end of its call's pseudocode. Raised by `microStep`; no run reaches it. Safe. -/
  | lostSequencer
  deriving DecidableEq, Repr

/-- The refusals: F3 of 60_exceptions.md R110, and an instruction with no meaning. -/
inductive Refusal where
  /-- An instruction whose arm has no meaning yet. Raised by no arm of this model. Safe. -/
  | notModelled (mnemonic : String)
  /-- F3: `writeBits([])` (R71, D7). Raised by `writeBitsOps`; no command asks for it. Safe. -/
  | emptyWrite
  /-- F3: `readBits(0)` (R73, D7). Raised by `readBitsOps`; no command asks for it. Safe. -/
  | emptyRead
  /-- F3: a read of the command buffer at or past `cb_len` (R34). Raised by `memRead`; the decoder never asks for it. Safe. -/
  | readPastLength
  /-- A write of the command buffer past its 512 bytes (R34: not defined). Raised by `memWrite`; no host write asks for it. Safe. -/
  | writePastBuffer
  deriving DecidableEq, Repr

/-- The state `S` of the block, with the host's and the slave's coming moves beside it. -/
structure State where
  /-- `acc`, the byte being assembled (R18). -/
  acc : Byte
  /-- `crc`, the CRC8 running value (R18). -/
  crc : Byte
  /-- `crc_ok`, the result of the last CRC check (R18). -/
  crcOk : Bool
  /-- `attempt`, the retry counter, 0 to 20 (R18). -/
  attempt : Nat
  /-- `rx`, the bytes read by the current readBits, at most 9 (R18). -/
  rx : List Byte
  /-- `tx`, the bytes being written by the current writeBits, at most 5 (R18). -/
  tx : List Byte
  /-- `b`, the bit `Sample()` returned, which `readSlot()` returns after the wait that ends the slot (R61, R72): the pseudocode's
  variable, held here between the two steps (entry 28). -/
  slotBit : Bool
  /-- `S.line_mode` (R19). -/
  lineMode : LineMode
  /-- `S.atomic` (R20). -/
  atomic : Bool
  /-- `S.crc_resend` (R21). -/
  crcResend : Bool
  /-- `S.session_open` (R22). -/
  sessionOpen : Bool
  /-- `S.line_owned` (R23). -/
  lineOwned : Bool
  /-- `S.queue`, oldest record first (R25). -/
  queue : List Record
  /-- `S.cb`, 512 bytes, of which the written ones are listed (R26). -/
  cb : Memory
  /-- `S.cb_len`, 0 to 512 (R26). -/
  cbLen : Nat
  /-- The sequencer position (R27). -/
  seq : SeqPos
  /-- `S.trace`, oldest event first (R28). -/
  trace : List Event
  /-- What the last host call returned (R14, R113). -/
  ret : CallResult
  /-- The host's coming moves, next first: the model's own field (entry 2). -/
  host : List HostEvent
  /-- The slave's coming answers, next first: the model's own field (entry 4). -/
  slave : List Bool
  /-- How many draws have been made: the counter the free values are applied to, the model's own field (entry 4). -/
  draws : Nat
  deriving DecidableEq, Repr

/-- The result of a step of this machine. -/
abbrev StepResult := Host.Outcome State Fault Refusal

/-- The state after a successful initialisation (R32, R121). The line mode and every byte of the command buffer are open; the datapath registers and the model's
own fields take the values of entries 2, 4, 11, 12 and 28. -/
def State.reset : State where
  acc := 0
  crc := 0
  crcOk := false
  attempt := 0
  rx := []
  tx := []
  slotBit := false
  lineMode := Config.initLineMode
  atomic := false
  crcResend := false
  sessionOpen := false
  lineOwned := true
  queue := []
  cb := []
  cbLen := 0
  seq := .idle
  trace := []
  ret := .none
  host := []
  slave := []
  draws := 0

end Sys2Proof.Machine
end

