-- ==== Sys2Proof/Machine/Ops.lean ====
section
/-! DEFINITION. The named operations over the state: the command buffer, the line, the timing primitives, the result queue,
the primitive steps every sequence is made of, and the end of a host call, with a value or with an error. -/

namespace Sys2Proof.Machine

/-! ### Sequencing -/

/-- Go on from a next state; a fault or a refusal ends the sequence. -/
def andThen (o : StepResult) (f : State → StepResult) : StepResult :=
  match o with
  | .next s => f s
  | .fault e => .fault e
  | .refused e => .refused e

/-! ### The command buffer (20_memory.md R33, R34) -/

/-- The byte last written at an offset, if one was. -/
def cellFind : Memory → Nat → Option Byte
  | [], _ => none
  | (b, v) :: m, a => if a = b then some v else cellFind m a

/-- The byte at an offset: the one last written there, and a free value where no write has been (R26, entry 10). -/
def cellGet (m : Memory) (a : Nat) : Byte := (cellFind m a).getD (Config.bufferByte a)

/-- Write one byte, keeping the offsets strictly rising. -/
def cellPut : Memory → Nat → Byte → Memory
  | [], a, v => [(a, v)]
  | (b, w) :: m, a, v =>
    if a < b then (a, v) :: (b, w) :: m
    else if a = b then (a, v) :: m
    else (b, w) :: cellPut m a v

/-- Read `n` bytes from offset `a`. -/
def cellsGet (m : Memory) : Nat → Nat → List Byte
  | _, 0 => []
  | a, n + 1 => cellGet m a :: cellsGet m (a + 1) n

/-- Write the bytes `vs` from offset `a`. -/
def cellsPut : Memory → Nat → List Byte → Memory
  | m, _, [] => m
  | m, a, v :: vs => cellsPut (cellPut m a v) (a + 1) vs

/-- The canonical form: offsets strictly rising and below 512. An unlisted offset holds a free value, which no entry
can be shown to equal (entry 10). -/
def Memory.wf : Memory → Bool
  | [] => true
  | [(a, _)] => decide (a < Config.cmdBufCap)
  | (a, _) :: (b, w) :: m => decide (a < b) && Memory.wf ((b, w) :: m)

/-- `MemRead(CB, a, n)`: the bytes in rising offset order, refused past `cb_len` (R34, F3). -/
def memRead (s : State) (a n : Nat) : Host.Outcome (List Byte) Fault Refusal :=
  if a + n ≤ s.cbLen then .next (cellsGet s.cb a n)
  else .refused .readPastLength

/-- `MemWrite(CB, a, len(v), v)`: defined only inside the 512 bytes (R34). -/
def memWrite (a : Nat) (v : List Byte) (s : State) : StepResult :=
  if a + v.length ≤ Config.cmdBufCap then .next { s with cb := cellsPut s.cb a v }
  else .refused .writePastBuffer

/-- The copy of a host write: the cursor is 0, `min(L, 512)` bytes are accepted and the rest is dropped silently, and
`cb_len` is the accepted length (R107, D14). -/
def load (bytes : List Byte) (s : State) : StepResult :=
  andThen (memWrite 0 (bytes.take Config.cmdBufCap) s) fun t =>
    .next { t with cbLen := (bytes.take Config.cmdBufCap).length }

/-! ### The line and its trace (40_line_and_timing.md) -/

/-- `emit(e)`: append one event to the line trace (R13, R28). -/
def emit (e : Event) (s : State) : State := { s with trace := s.trace ++ [e] }

/-- A line-driver operation (R57). -/
inductive LineOp where
  /-- `driveLow()` (R58). -/
  | driveLow
  /-- `driveHigh()` (R59). -/
  | driveHigh
  /-- `releaseToInput()` (R60). -/
  | release
  deriving DecidableEq, Repr

/-- The mode a line operation leaves (R58, R59, R60). -/
def LineOp.mode : LineOp → LineMode
  | .driveLow => .driveLow
  | .driveHigh => .driveHigh
  | .release => .input

/-- The event a line operation emits (R58, R59, R60). -/
def LineOp.event : LineOp → Event
  | .driveLow => .driveLow
  | .driveHigh => .driveHigh
  | .release => .release

/-- `Line(o)`: needs the line to be owned (R23, R57). -/
def line (o : LineOp) (s : State) : StepResult :=
  if s.lineOwned then .next (emit o.event { s with lineMode := o.mode })
  else .fault .noOperatingState

/-- The slave's answer to its `k`-th coming read slot: its own coming answer, or a free value where none is given
(R29, R62; entry 4). -/
def slaveAnswer (s : State) (k : Nat) : Bool :=
  match s.slave[k]? with
  | some b => b
  | none => Config.slaveBit (s.draws + k)

/-- `LineLevel(S)`: the slave's answer when the line is released, any level while the block drives it (R62). -/
def lineLevel (s : State) : Bool :=
  match s.lineMode with
  | .input => slaveAnswer s 0
  | .driveLow => Config.drivenLevel s.draws
  | .driveHigh => Config.drivenLevel s.draws

/-- The state after a draw: an answer of the slave is used up only where the slave was read. -/
def afterDraw (s : State) : State :=
  match s.lineMode with
  | .input => { s with slave := s.slave.tail, draws := s.draws + 1 }
  | .driveLow => { s with draws := s.draws + 1 }
  | .driveHigh => { s with draws := s.draws + 1 }

/-- A bit as the bit `i` of a byte (R10, R73: `b << i`). -/
def bitAt (b : Bool) (i : Nat) : Byte := (BitVec.ofBool b).zeroExtend 8 <<< i

/-- `b <- Sample()` (R61, R72; entry 28). -/
def sample (s : State) : StepResult :=
  if s.lineOwned then .next { emit (.sample (lineLevel s)) (afterDraw s) with slotBit := lineLevel s }
  else .fault .noOperatingState

/-- `acc <- acc | (b << i)`, when readSlot has returned `b` (R73). -/
def shiftIn (i : Nat) (s : State) : State := { s with acc := s.acc ||| bitAt s.slotBit i }

/-- `Delay(n)` (R63). -/
def delay (us : Nat) (s : State) : State := emit (.delay us) s

/-- `Sleep(n)`: a fault inside an atomic section (R64). -/
def sleep (ms : Nat) (s : State) : StepResult :=
  if s.atomic then .fault .atomicViolation else .next (emit (.sleep ms) s)

/-- `AtomicBegin`: sections do not nest (R65). -/
def atomicBegin (s : State) : StepResult :=
  if s.atomic then .fault .atomicViolation else .next (emit .atomicBegin { s with atomic := true })

/-- `AtomicEnd` (R65). -/
def atomicEnd (s : State) : StepResult :=
  if s.atomic then .next (emit .atomicEnd { s with atomic := false }) else .fault .atomicViolation

/-- The CRC check that ends readBits: `crc` and `crc_ok` are written (R73, R76, R77). -/
def checkCrc (s : State) : StepResult :=
  match s.rx.getLast? with
  | some b => .next { s with crc := crc8 s.rx.dropLast, crcOk := crc8 s.rx.dropLast == b }
  | none => .refused .emptyRead

/-! ### The primitive steps (00_scope.md R15) -/

/-- One primitive step of a sequence. -/
inductive Prim where
  /-- A line operation. -/
  | line (o : LineOp)
  /-- `Delay(us)`. -/
  | delay (us : Nat)
  /-- `Sleep(ms)`. -/
  | sleep (ms : Nat)
  /-- `AtomicBegin`. -/
  | atomicBegin
  /-- `AtomicEnd`. -/
  | atomicEnd
  /-- `tx` takes the bytes about to be written (R18, R71). -/
  | setTx (bs : List Byte)
  /-- `rx <- []` (R73). -/
  | clearRx
  /-- `acc <- 0x00` (R73). -/
  | clearAcc
  /-- `b <- Sample()` (R72). -/
  | sample
  /-- `acc <- acc | (b << i)` (R73). -/
  | shiftIn (i : Nat)
  /-- `rx <- rx ++ [acc]` (R73). -/
  | storeByte
  /-- `crc_ok <- (crc8(init(rx)) = last(rx))` (R73). -/
  | checkCrc
  /-- `S.crc_resend <- b` (R87, R88). -/
  | setResend (b : Bool)
  /-- `S.queue <- []` (R89). -/
  | flush
  /-- `attempt <- 1` (R82). -/
  | firstAttempt
  /-- `attempt <- attempt + 1` (R82). -/
  | nextAttempt
  /-- The copy of a host write into the command buffer (R107). -/
  | load (bytes : List Byte)
  /-- A sequence the spec refuses (F3). -/
  | refuse (e : Refusal)
  deriving DecidableEq, Repr

/-- What one primitive step does. -/
def runPrim (p : Prim) (s : State) : StepResult :=
  match p with
  | .line o => line o s
  | .delay us => .next (delay us s)
  | .sleep ms => sleep ms s
  | .atomicBegin => atomicBegin s
  | .atomicEnd => atomicEnd s
  | .setTx bs => .next { s with tx := bs }
  | .clearRx => .next { s with rx := [] }
  | .clearAcc => .next { s with acc := 0 }
  | .sample => sample s
  | .shiftIn i => .next (shiftIn i s)
  | .storeByte => .next { s with rx := s.rx ++ [s.acc] }
  | .checkCrc => checkCrc s
  | .setResend b => .next { s with crcResend := b }
  | .flush => .next { s with queue := [] }
  | .firstAttempt => .next { s with attempt := 1 }
  | .nextAttempt => .next { s with attempt := s.attempt + 1 }
  | .load bytes => load bytes s
  | .refuse e => .refused e

/-- A sequence of primitive steps, in order (R15, R41). -/
def runPrims : List Prim → State → StepResult
  | [], s => .next s
  | p :: ps, s => andThen (runPrim p s) (runPrims ps)

/-! ### The result queue (44_result_queue.md) -/

/-- `Push` on a queue: false and no change when it holds 128 records (R98). -/
def pushQueue (r : Record) (q : List Record) : Bool × List Record :=
  if q.length = Config.queueCap then (false, q) else (true, q ++ [r])

/-- `Pop` on a queue: the oldest record, or none and no change (R99). -/
def popQueue (q : List Record) : Option Record × List Record :=
  match q with
  | [] => (none, [])
  | r :: rest => (some r, rest)

/-! ### The end of a host call -/

/-- A call completes: its value is handed to the host and the sequencer is idle again (R27, R79). -/
def returnWith (v : CallResult) (s : State) : State := { s with ret := v, seq := .idle }

/-- `raise E`, the block's one exception entry (R14, R113): the call ends with the error kind as its result, the sequencer is
idle, and nothing is rolled back, saved or vectored. There is no return from it: the next call simply runs (R114). -/
def raise (e : ErrorKind) (s : State) : State := returnWith (.error e) s

/-- `return S.cb_len`, the end of a dispatch (R79). -/
def returnCount (s : State) : State := returnWith (.count s.cbLen) s

/-- `pushResult(rec)` and the return after it: a full queue drops the record and raises QueueFull (R80, C1). -/
def pushResult (r : Record) (s : State) : State :=
  match pushQueue r s.queue with
  | (true, q) => returnCount { s with queue := q }
  | (false, _) => raise .queueFull s

end Sys2Proof.Machine
end

