-- ==== Sys2Proof/Machine/Operands.lean ====
section
/-! DEFINITION. The operand and result forms of the commands: the ROM command bytes (30_encoding.md R56), the records they
queue (10_state.md R24, 43_dispatcher.md R90 to R93), and the ways a call can end. The one encoded operand, the payload of
`WS` (R50), is `wsPayload` in Decode. -/

namespace Sys2Proof.Machine

/-- `rec(b0, …, bk-1)`: at most eight bytes, zero beyond them (R24, D20). -/
def recordOf (bs : List Byte) : Record where
  data := bs.take Config.recordCap ++ List.replicate (Config.recordCap - bs.length) 0
  size := min bs.length Config.recordCap

/-- A well-formed record: eight data bytes, a size of at most eight, zeros from the size on (R24). -/
def Record.wf (r : Record) : Bool :=
  decide (r.data.length = Config.recordCap) && decide (r.size ≤ Config.recordCap) &&
    (r.data.drop r.size).all (· == 0)

/-- The four bytes of `SIZE`: the length masked without a shift, each cut to a byte (R90). -/
def sizeBytes (q : Nat) : List Byte :=
  [BitVec.ofNat 8 (q &&& 0xFF), BitVec.ofNat 8 (q &&& 0xFF00), BitVec.ofNat 8 (q &&& 0xFF0000),
    BitVec.ofNat 8 (q &&& 0xFF000000)]

/-- What a command queues. -/
inductive ResultForm where
  /-- Constant bytes: an echo, `'1'` or `'-'`. -/
  | bytes (bs : List Byte)
  /-- The queue's length, measured before the push (R90). -/
  | queueLength
  /-- The first `n` received bytes (R91, R93). -/
  | received (n : Nat)
  deriving DecidableEq, Repr

/-- The record a result form stands for in a state. -/
def resultRecord (f : ResultForm) (s : State) : Record :=
  match f with
  | .bytes bs => recordOf bs
  | .queueLength => recordOf (sizeBytes s.queue.length)
  | .received n => recordOf (s.rx.take n)

/-- The bytes `RA` writes after the reset (R56). -/
def romReadAddress : List Byte := [0x33]
/-- The write-scratchpad bytes of `WS` (R56). -/
def romWriteScratchpad : List Byte := [0xCC, 0x4E]
/-- The read-scratchpad bytes of `RS` (R56). -/
def romReadScratchpad : List Byte := [0xCC, 0xBE]
/-- The convert bytes of `CT` (R56). -/
def romConvert : List Byte := [0xCC, 0x44]

/-- `read(capacity)`: pop one record, hand over at most `min(capacity, size)` bytes of it; a failed copy loses the record;
an empty queue gives zero bytes (R108). -/
def hostRead (capacity : Nat) (copyFails : Bool) (s : State) : State :=
  match popQueue s.queue with
  | (none, _) => returnWith .empty s
  | (some r, q) =>
    if copyFails then raise .copyFault { s with queue := q }
    else returnWith (.data (r.data.take (min capacity r.size))) { s with queue := q }

/-- `open()`: one atomic check and set (R104). -/
def hostOpen (s : State) : State :=
  if s.sessionOpen then raise .sessionBusy s else returnWith .ok { s with sessionOpen := true }

/-- `release()`: always clears, safe to repeat (R105). -/
def hostRelease (s : State) : State := returnWith .ok { s with sessionOpen := false }

/-- The last step of a host call. -/
inductive Finish where
  /-- Return `S.cb_len`. -/
  | count
  /-- `pushResult`, then return `S.cb_len`. -/
  | push (f : ResultForm)
  /-- Raise an error. -/
  | error (e : ErrorKind)
  /-- The whole of `open`. -/
  | openSession
  /-- The whole of `release`. -/
  | releaseSession
  /-- The whole of `read`. -/
  | read (capacity : Nat) (copyFails : Bool)
  deriving DecidableEq, Repr

/-- What the last step of a call does. -/
def runFinish (f : Finish) (s : State) : State :=
  match f with
  | .count => returnCount s
  | .push g => pushResult (resultRecord g s) s
  | .error e => raise e s
  | .openSession => hostOpen s
  | .releaseSession => hostRelease s
  | .read c b => hostRead c b s

/-- A command with no loop: its primitive steps, then its last step. -/
def runCommand (ps : List Prim) (f : Finish) (s : State) : StepResult :=
  andThen (runPrims ps s) fun t => .next (runFinish f t)

end Sys2Proof.Machine
end

