-- ==== Sys2Proof/Machine/Control.lean ====
section
/-! DEFINITION. The control commands `ECRC`, `DCRC`, `FLUSH`, `SIZE`, and `NOMATCH` (43_dispatcher.md R87 to R90, R97). -/

namespace Sys2Proof.Machine

/-- `ECRC`: enable CRC-resend mode, then queue `'1'` (R87). -/
def execEcrc (s : State) : StepResult := runCommand [.setResend true] (.push (.bytes [0x31])) s

/-- `DCRC`: disable CRC-resend mode, then queue `'1'` (R88). -/
def execDcrc (s : State) : StepResult := runCommand [.setResend false] (.push (.bytes [0x31])) s

/-- `FLUSH`: discard every queued record, queue nothing (R89). -/
def execFlush (s : State) : StepResult := runCommand [.flush] .count s

/-- `SIZE`: queue the length the queue had before (R90). -/
def execSize (s : State) : StepResult := runCommand [] (.push .queueLength) s

/-- `NOMATCH`: nothing but the return of the accepted length (R53, R97). -/
def execNoMatch (s : State) : StepResult := runCommand [] .count s

end Sys2Proof.Machine
end

