-- ==== Sys2Proof/Machine/Transceiver.lean ====
section
/-! DEFINITION. The bit transceiver: reset, writeBits and readBits as lists of primitive steps, in the order of the
pseudocode (41_bit_transceiver.md R68 to R73). -/

namespace Sys2Proof.Machine

/-- `reset()`: no atomic section, no presence sample (R68, R69). -/
def resetOps : List Prim :=
  [.line .driveLow, .delay Config.tRstLow, .line .driveHigh, .line .release, .delay Config.tRstSettle]

/-- `writeSlot(b)`: one atomic section a bit (R70, C3). -/
def writeSlotOps (b : Bool) : List Prim :=
  [.atomicBegin, .line .driveLow, .delay (if b then Config.tW1Low else Config.tW0Low),
    .line .release, .delay (if b then Config.tW1Rel else Config.tW0Rel), .atomicEnd]

/-- The eight bits of a byte in wire order, bit 0 first (R36). -/
def wireBits (b : Byte) : List Bool := (List.range 8).map b.getLsbD

/-- One written byte: its eight slots, then the byte gap (R71). -/
def writeByteOps (b : Byte) : List Prim :=
  (wireBits b).flatMap writeSlotOps ++ [.delay Config.tByteGap]

/-- `writeBits(tx)`; the empty list is refused (R71, D7). -/
def writeBitsOps : List Byte → List Prim
  | [] => [.refuse .emptyWrite]
  | b :: bs => .setTx (b :: bs) :: (b :: bs).flatMap writeByteOps

/-- `readSlot()`; it returns the sampled bit after the wait that ends the slot (R72). -/
def readSlotOps : List Prim :=
  [.line .driveLow, .delay Config.tRLow, .line .release, .delay Config.tRSample, .sample, .delay Config.tRRec]

/-- `b <- readSlot(); acc <- acc | (b << i)`, in that order (R15, R73). -/
def readBitOps (i : Nat) : List Prim := readSlotOps ++ [.shiftIn i]

/-- One read byte, first sample to bit 0 (R73). -/
def readByteOps : List Prim := .clearAcc :: (List.range 8).flatMap readBitOps ++ [.storeByte]

/-- `readBits(count)`: one atomic section for the whole read, then the CRC check; a count of 0 is refused (R73, D7). -/
def readBitsOps : Nat → List Prim
  | 0 => [.refuse .emptyRead]
  | n + 1 =>
    [.atomicBegin, .clearRx] ++ (List.replicate (n + 1) readByteOps).flatten ++ [.atomicEnd, .checkCrc]

end Sys2Proof.Machine
end

