-- ==== Sys2Proof/Machine/Line.lean ====
section
/-! DEFINITION. The single-byte line commands `r`, `h`, `l`, `i` and the fallback commands `0`, `1`
(43_dispatcher.md R83 to R86, R95, R96). -/

namespace Sys2Proof.Machine

/-- `r`: reset, then echo (R83). -/
def execR (s : State) : StepResult := runCommand resetOps (.push (.bytes [0x72])) s

/-- `h`: drive the line high, then echo (R84). -/
def execH (s : State) : StepResult := runCommand [.line .driveHigh] (.push (.bytes [0x68])) s

/-- `l`: drive the line low, then echo (R85). -/
def execL (s : State) : StepResult := runCommand [.line .driveLow] (.push (.bytes [0x6C])) s

/-- `i`: release the line to input, then echo (R86). -/
def execI (s : State) : StepResult := runCommand [.line .release] (.push (.bytes [0x69])) s

/-- `0`: drive the line low, no echo (R95). -/
def execZero (s : State) : StepResult := runCommand [.line .driveLow] .count s

/-- `1`: drive the line high, no echo (R96). -/
def execOne (s : State) : StepResult := runCommand [.line .driveHigh] .count s

end Sys2Proof.Machine
end

