-- ==== Sys2Proof/Machine/Slave.lean ====
section
/-! DEFINITION. The slave transactions `RA`, `WS`, `RS`, `CT` and the CRC-retry policy
(43_dispatcher.md R81, R82, R91 to R94). -/

namespace Sys2Proof.Machine

/-- `max`: 20 attempts with CrcResendMode, else 1 (R82). -/
def maxAttempts (s : State) : Nat := if s.crcResend then Config.crcRetries else 1

/-- What runs once, before the first attempt: the lead-in when only the read is repeated (R81, R82). -/
def leadOnce (scope : RetryScope) (lead : List Prim) : List Prim :=
  match scope with
  | .wholeTransaction => []
  | .readOnly => lead

/-- What every attempt runs (R81). -/
def attemptOps (scope : RetryScope) (lead : List Prim) (count : Nat) : List Prim :=
  match scope with
  | .wholeTransaction => lead ++ readBitsOps count
  | .readOnly => readBitsOps count

/-- Between two attempts: the sleep, then the next number (R82). -/
def retryOps : List Prim := [.sleep Config.retrySleepMs, .nextAttempt]

/-- The retry loop with `left` attempts still allowed after this one: it stops at the first valid CRC, and the last attempt's
bytes are used as they are (R82). -/
def attemptLoop (body : List Prim) : Nat → State → StepResult
  | 0, s => runPrims body s
  | left + 1, s =>
    andThen (runPrims body s) fun t =>
      if t.crcOk then .next t else andThen (runPrims retryOps t) (attemptLoop body left)

/-- `checkedRead(prefix, count)`: the mode is read once, here (R82, D11). -/
def checkedRead (scope : RetryScope) (lead : List Prim) (count : Nat) (s : State) : StepResult :=
  andThen (runPrims (leadOnce scope lead ++ [.firstAttempt]) s)
    (attemptLoop (attemptOps scope lead count) (maxAttempts s - 1))

/-- `prefix_RA()` (R91). -/
def raLead : List Prim := resetOps ++ writeBitsOps romReadAddress ++ [.delay Config.tRaWait]

/-- `prefix_RS()` (R93). -/
def rsLead : List Prim := resetOps ++ writeBitsOps romReadScratchpad ++ [.delay Config.tRsWait]

/-- The whole of `WS` with payload `p` (R92); a payload is cut to three bytes (R50; entry 27). -/
def wsOps (p : List Byte) : List Prim :=
  resetOps ++ writeBitsOps (romWriteScratchpad ++ p.take Config.wsMaxPayload) ++ [.delay Config.tWsWait]

/-- The line work of `CT` (R94): no wait after the write. -/
def ctOps : List Prim := resetOps ++ writeBitsOps romConvert

/-- The bytes an `RA` attempt reads; all are queued, the CRC byte last (R91). -/
def raCount : Nat := 8
/-- The bytes an `RS` attempt reads; the ninth, the CRC byte, is dropped (R93). -/
def rsCount : Nat := 9

/-- `RA`: read address (R91). -/
def execRa (s : State) : StepResult :=
  andThen (checkedRead Config.retryScope raLead raCount s) fun t => .next (runFinish (.push (.received 8)) t)

/-- `WS`: write scratchpad; nothing is queued (R92). -/
def execWs (p : List Byte) (s : State) : StepResult := runCommand (wsOps p) .count s

/-- `RS`: read scratchpad (R93). -/
def execRs (s : State) : StepResult :=
  andThen (checkedRead Config.retryScope rsLead rsCount s) fun t => .next (runFinish (.push (.received 8)) t)

/-- `CT`: start a conversion, then queue `'-'` (R94). -/
def execCt (s : State) : StepResult := runCommand ctOps (.push (.bytes [0x2D])) s

end Sys2Proof.Machine
end

