-- ==== Sys2Proof/Machine/Dispatch.lean ====
section
/-! DEFINITION. The dispatch of a decoded command to its meaning (43_dispatcher.md R79: `execute(cmd)`, with the return of
the accepted length or of QueueFull that ends it). -/

namespace Sys2Proof.Machine

def exec (i : Instr) (s : State) : Host.Outcome State Fault Refusal :=
  match i with
  | .r => Sys2Proof.Machine.execR s
  | .h => Sys2Proof.Machine.execH s
  | .l => Sys2Proof.Machine.execL s
  | .i => Sys2Proof.Machine.execI s
  | .ecrc => Sys2Proof.Machine.execEcrc s
  | .dcrc => Sys2Proof.Machine.execDcrc s
  | .flush => Sys2Proof.Machine.execFlush s
  | .size => Sys2Proof.Machine.execSize s
  | .ra => Sys2Proof.Machine.execRa s
  | .ws p => Sys2Proof.Machine.execWs p s
  | .rs => Sys2Proof.Machine.execRs s
  | .ct => Sys2Proof.Machine.execCt s
  | .zero => Sys2Proof.Machine.execZero s
  | .one => Sys2Proof.Machine.execOne s
  | .noMatch => Sys2Proof.Machine.execNoMatch s

end Sys2Proof.Machine
end

