-- ==== Sys2Proof/Machine/HostCalls.lean ====
section
/-! DEFINITION. The host interface: dispatch, the four host calls, and the moves a host must not make
(43_dispatcher.md R79, 45_host_interface.md R103 to R109, 70_reset_and_hazards.md R123). -/

namespace Sys2Proof.Machine

/-- `dispatch()`: decode the accepted bytes of the command buffer and execute (R79). -/
def dispatch (s : State) : StepResult :=
  match memRead s 0 s.cbLen with
  | .next bs => exec (decode bs) s
  | .fault e => .fault e
  | .refused e => .refused e

/-- `write(bytes)`: a failed copy leaves the state as it was; otherwise the buffer is filled and dispatched (R107). -/
def hostWrite (bytes : List Byte) (copyFails : Bool) (s : State) : StepResult :=
  if copyFails then .next (raise .copyFault s) else andThen (load bytes s) dispatch

/-- A whole host call as one step (R27: a model may run a host call as one big step). -/
def runCall (c : HostCall) (s : State) : StepResult :=
  match c with
  | .openSession => .next (hostOpen s)
  | .releaseSession => .next (hostRelease s)
  | .write bytes fails => hostWrite bytes fails s
  | .read capacity fails => .next (hostRead capacity fails s)

/-- `write` and `read` need an open session (R106). -/
def needsSession : HostCall → Bool
  | .openSession => false
  | .releaseSession => false
  | .write _ _ => true
  | .read _ _ => true

/-- A call moves the sequencer to BUSY(call, 0) and runs to completion (R27, R103), unless the atomic section is held (R66) or
the host has no open session for it (R106). -/
def startCall (c : HostCall) (s : State) : StepResult :=
  if s.atomic then .fault .atomicViolation
  else if needsSession c && !s.sessionOpen then .fault .noSession
  else runCall c { s with seq := .busy c 0 }

/-- Initialisation, the block's only reset: acquire the line, then give every field its value, with no event; a failed
acquisition leaves no operating state (R121, entry 13). -/
def initialise (acquired : Bool) : StepResult := if acquired then .next State.reset else .fault .noOperatingState

/-- What a call issued while another is in flight does: two writes or two reads are the SPSC violation (R42, R131), anything
else is a move the host does not have (R103). -/
def overlapFault : HostCall → HostCall → Fault
  | .write _ _, .write _ _ => .spscViolation
  | .read _ _, .read _ _ => .spscViolation
  | _, _ => .callInFlight

/-- The teardown gives the line up; the mode it is left in is not stated, and no condition on the move is (R123, entry 14). -/
def teardown (s : State) : State :=
  { s with lineOwned := false, lineMode := Config.teardownMode s.draws, draws := s.draws + 1 }

/-- One move of the host. DESIGN CHOICE: an overlap of two calls is its own fault whatever else is wrong, so it is named before a
held atomic section or a missing session is looked at; the spec gives no order (entry 19). DESIGN CHOICE: a teardown is taken
even while the atomic section is held, since R66 names no teardown among what it bars and R123 gives no condition (entry 14); no run reaches
that state (R20). -/
def hostMove (e : HostEvent) (s : State) : StepResult :=
  match e with
  | .call c => startCall c s
  | .overlap a b => .fault (overlapFault a b)
  | .teardown => .next (teardown s)

/-- The host's next move is a write of `bytes`, with all it takes for the next step to run it: an owned line, an open session,
an idle sequencer and no atomic section held (entry 3). -/
def placeWrite (bytes : List Byte) (s : State) : State :=
  { s with
    host := .call (.write bytes false) :: s.host
    sessionOpen := true
    lineOwned := true
    seq := .idle
    atomic := false }

end Sys2Proof.Machine
end

