-- ==== Sys2Proof/Machine/Sequencer.lean ====
section
/-! DEFINITION. The sequencer (10_state.md R27, 00_scope.md R15): the pseudocode of every host call as a list of primitive
steps, the step at a position BUSY(call, k) of it, and the machine's next move. A call issued by an idle host runs as one big
step; from a BUSY position a step runs one primitive. -/

namespace Sys2Proof.Machine

/-- One step of a call's pseudocode. -/
inductive MicroOp where
  /-- A primitive step. -/
  | prim (p : Prim)
  /-- The end of one attempt of the retry loop, whose body is the `back` steps before this one (R82). -/
  | retry (back : Nat)
  /-- The last step of the call. -/
  | finish (f : Finish)
  deriving DecidableEq, Repr

/-- A straight sequence and the last step. -/
def straightCode (ps : List Prim) (f : Finish) : List MicroOp := ps.map MicroOp.prim ++ [.finish f]

/-- The code of `checkedRead` and the last step (R82). -/
def checkedCode (scope : RetryScope) (lead : List Prim) (count : Nat) (f : Finish) : List MicroOp :=
  (leadOnce scope lead ++ Prim.firstAttempt :: attemptOps scope lead count).map MicroOp.prim ++
    [.retry (attemptOps scope lead count).length, .finish f]

/-- The code of a command (43_dispatcher.md). -/
def commandCode : Instr → List MicroOp
  | .r => straightCode resetOps (.push (.bytes [0x72]))
  | .h => straightCode [.line .driveHigh] (.push (.bytes [0x68]))
  | .l => straightCode [.line .driveLow] (.push (.bytes [0x6C]))
  | .i => straightCode [.line .release] (.push (.bytes [0x69]))
  | .ecrc => straightCode [.setResend true] (.push (.bytes [0x31]))
  | .dcrc => straightCode [.setResend false] (.push (.bytes [0x31]))
  | .flush => straightCode [.flush] .count
  | .size => straightCode [] (.push .queueLength)
  | .ra => checkedCode Config.retryScope raLead raCount (.push (.received 8))
  | .ws p => straightCode (wsOps p) .count
  | .rs => checkedCode Config.retryScope rsLead rsCount (.push (.received 8))
  | .ct => straightCode ctOps (.push (.bytes [0x2D]))
  | .zero => straightCode [.line .driveLow] .count
  | .one => straightCode [.line .driveHigh] .count
  | .noMatch => straightCode [] .count

/-- The code of a host call: a write copies its bytes as one step (R39), then runs the command they decode to. -/
def callCode : HostCall → List MicroOp
  | .openSession => [.finish .openSession]
  | .releaseSession => [.finish .releaseSession]
  | .write _ true => [.finish (.error .copyFault)]
  | .write bytes false => .prim (.load bytes) :: commandCode (decode (bytes.take Config.cmdBufCap))
  | .read capacity fails => [.finish (.read capacity fails)]

/-- The step at BUSY(call, k). -/
def microStep (c : HostCall) (k : Nat) (s : State) : StepResult :=
  match (callCode c)[k]? with
  | none => .fault .lostSequencer
  | some (.prim p) => andThen (runPrim p s) fun t => .next { t with seq := .busy c (k + 1) }
  | some (.retry back) =>
    if s.attempt = maxAttempts s ∨ s.crcOk = true then .next { s with seq := .busy c (k + 1) }
    else andThen (runPrims retryOps s) fun t => .next { t with seq := .busy c (k - back) }
  | some (.finish f) => .next (runFinish f s)

/-- The machine's next move: no step without an owned line (R57, R123); the next primitive of a call in progress, which no
other call interrupts (R66, R103); or, when idle, the host's next move, and nothing when the host makes none (entry 2). -/
def nextMove (s : State) : StepResult :=
  if s.lineOwned then
    match s.seq with
    | .busy c k => microStep c k s
    | .idle =>
      match s.host with
      | [] => .next s
      | e :: rest => hostMove e { s with host := rest }
  else .fault .noOperatingState

end Sys2Proof.Machine
end

