-- ==== Sys2Proof/Machine/Step.lean ====
section
/-! DEFINITION. One step of the machine, and the placing of one command word where the next step runs it. -/

namespace Sys2Proof.Machine

/-- One step: the machine's next move. -/
def step (s : State) : Host.Outcome State Fault Refusal := nextMove s

/-- `s` with the table word's bytes as the host's next write (entry 3). -/
def State.withFetchWord (s : State) (nbits w : Nat) : State := placeWrite (tableBytes nbits w) s

end Sys2Proof.Machine
end

