-- ==== Sys2Proof/Machine/Flags.lean ====
section
/-! DEFINITION. Status values: the derived predicates (10_state.md R30), the kinds and codes of 60_exceptions.md R110, and
the register view of 10_state.md R31, which packs the state into bit fields. -/

namespace Sys2Proof.Machine

/-- `full(S)` (R30). -/
def queueIsFull (s : State) : Bool := s.queue.length == Config.queueCap

/-- `empty(S)` (R30). -/
def queueIsEmpty (s : State) : Bool := s.queue.length == 0

/-- The error and status kinds (R110). -/
inductive StatusKind where
  | ok
  | sessionBusy
  | queueFull
  | copyFault
  | queueEmpty
  | crcMismatch
  deriving DecidableEq, Repr

/-- The code of a kind: the spec's own numbering (R110, D21). -/
def statusCode : StatusKind → Nat
  | .ok => 0
  | .sessionBusy => 1
  | .queueFull => 2
  | .copyFault => 3
  | .queueEmpty => 4
  | .crcMismatch => 5

/-- The kind of an error (R110). -/
def errorKind : ErrorKind → StatusKind
  | .sessionBusy => .sessionBusy
  | .queueFull => .queueFull
  | .copyFault => .copyFault

/-- The kind of a call's outcome (R110); a call that has not ended counts as no error. -/
def resultKind : CallResult → StatusKind
  | .none => .ok
  | .ok => .ok
  | .count _ => .ok
  | .data _ => .ok
  | .empty => .queueEmpty
  | .error e => errorKind e

/-- The bytes the host sees from a read: an empty queue looks like a record cut to nothing (R108). -/
def visibleBytes : CallResult → List Byte
  | .data bs => bs
  | .none => []
  | .ok => []
  | .count _ => []
  | .empty => []
  | .error _ => []

/-- The internal status of the last CRC check: a mismatch is never returned (R110, code 5). -/
def crcStatus (s : State) : StatusKind := if s.crcOk then .ok else .crcMismatch

/-! ### The register view (R31): for packing only, a host cannot address it (D25) -/

/-- `LINE.MODE` [1:0]; `11` is reserved and never written. -/
def lineModeField : LineMode → BitVec 2
  | .input => 0b00
  | .driveLow => 0b01
  | .driveHigh => 0b10

/-- `CTRL`: bit 0 CRC_RESEND, bit 1 ATOMIC. -/
def ctrlField (s : State) : BitVec 2 := BitVec.ofBool s.atomic ++ BitVec.ofBool s.crcResend

/-- `QSTAT.COUNT` [7:0]. -/
def qstatField (s : State) : BitVec 8 := BitVec.ofNat 8 s.queue.length

/-- `SESS.OPEN` [0]. -/
def sessField (s : State) : BitVec 1 := BitVec.ofBool s.sessionOpen

/-- `CB.LEN` [9:0]. -/
def cbLenField (s : State) : BitVec 10 := BitVec.ofNat 10 s.cbLen

end Sys2Proof.Machine
end

