-- ==== Sys2Proof/Machine/Ring.lean ====
section
/-! DEFINITION. The ring buffer behind the result queue (20_memory.md R35): 128 record slots, the index of the oldest record
and the number held. The state holds the abstract queue; this is its concrete form. -/

namespace Sys2Proof.Machine

/-- `slot[0..127]`, `head`, `count` (R35). -/
structure Ring where
  slots : List Record
  head : Nat
  count : Nat
  deriving DecidableEq, Repr

/-- The ring's ranges (R35). -/
def Ring.wf (r : Ring) : Bool :=
  decide (r.slots.length = Config.queueCap) && decide (r.head < Config.queueCap) && decide (r.count ≤ Config.queueCap)

/-- The ring after initialisation: `head = 0`, `count = 0` (D17). -/
def ringReset : Ring where
  slots := List.replicate Config.queueCap (recordOf [])
  head := 0
  count := 0

/-- The record in a slot. -/
def ringSlot (r : Ring) (i : Nat) : Record := r.slots.getD i (recordOf [])

/-- The abstract queue: `[slot[(head + j) mod 128] for j in 0..count-1]` (R35). -/
def ringQueue (r : Ring) : List Record :=
  (List.range r.count).map fun j => ringSlot r ((r.head + j) % Config.queueCap)

/-- Push writes `slot[(head + count) mod 128]` and increments `count` (R35). -/
def ringPush (x : Record) (r : Ring) : Bool × Ring :=
  if r.count = Config.queueCap then (false, r)
  else (true, { r with slots := r.slots.set ((r.head + r.count) % Config.queueCap) x, count := r.count + 1 })

/-- Pop reads `slot[head]`, advances `head` and decrements `count` (R35). -/
def ringPop (r : Ring) : Option Record × Ring :=
  if r.count = 0 then (none, r)
  else (some (ringSlot r r.head), { r with head := (r.head + 1) % Config.queueCap, count := r.count - 1 })

end Sys2Proof.Machine
end

