-- ==== Sys2Proof/Machine/Timing.lean ====
section
/-! DEFINITION. Nominal durations (70_reset_and_hazards.md R133): the `Delay` and `Sleep` time of a trace. Nothing in the
machine depends on it. -/

namespace Sys2Proof.Machine

/-- The nominal microseconds of one event (R63, R64). -/
def eventMicros : Event → Nat
  | .delay us => us
  | .sleep ms => 1000 * ms
  | .driveLow => 0
  | .driveHigh => 0
  | .release => 0
  | .sample _ => 0
  | .atomicBegin => 0
  | .atomicEnd => 0

/-- The nominal microseconds of a stretch of the trace. -/
def traceMicros (t : List Event) : Nat := (t.map eventMicros).sum

end Sys2Proof.Machine
end

