-- ==== Sys2Proof/Safety.lean ====
section
/-! DEFINITION. The terms the claims are stated in: the invariant of a run, and the line events and bytes the rules give in
closed form, written from the rules' own words and numbers and not from the meanings. -/

namespace Sys2Proof.Machine

/-! ### What holds between host calls -/

/-- What holds whenever a host call may begin: the block is idle and every bound of 10_state.md holds. -/
structure State.Inv (s : State) : Prop where
  /-- R27: no call is in progress. -/
  idle : s.seq = .idle
  /-- R20, R66: the atomic section is not held between calls. -/
  atomicClear : s.atomic = false
  /-- R25, R101: at most 128 records. -/
  queueBound : s.queue.length ≤ 128
  /-- R24: every record has eight data bytes, a size of at most eight and zeros beyond it. -/
  records : ∀ r ∈ s.queue, r.wf = true
  /-- The command buffer is in its canonical form. -/
  cbCanonical : Memory.wf s.cb = true
  /-- R26: `cb_len` is at most 512. -/
  cbLenBound : s.cbLen ≤ 512
  /-- R26, R107: every byte below `cb_len` has been written, so no free byte of the buffer is ever read. -/
  cbWritten : ∀ a, a < s.cbLen → (cellFind s.cb a).isSome = true
  /-- R18: the attempt counter is at most 20. -/
  attemptBound : s.attempt ≤ 20
  /-- R18: at most nine received bytes. -/
  rxBound : s.rx.length ≤ 9
  /-- R18: at most five bytes to write. -/
  txBound : s.tx.length ≤ 5

/-- The command pushes a record (R83 to R97). -/
def pushesResult : Instr → Bool
  | .r => true
  | .h => true
  | .l => true
  | .i => true
  | .ecrc => true
  | .dcrc => true
  | .flush => false
  | .size => true
  | .ra => true
  | .ws _ => false
  | .rs => true
  | .ct => true
  | .zero => false
  | .one => false
  | .noMatch => false

/-! ### Line events in closed form -/

/-- The five events of a bus reset (R68). -/
def resetEvents : List Event := [.driveLow, .delay 500, .driveHigh, .release, .delay 500]

/-- The six events of a write slot (R70). -/
def writeSlotEvents (b : Bool) : List Event :=
  if b then [.atomicBegin, .driveLow, .delay 7, .release, .delay 60, .atomicEnd]
  else [.atomicBegin, .driveLow, .delay 60, .release, .delay 15, .atomicEnd]

/-- The events of writing a byte list: the eight bits of each byte, bit 0 first, then the gap (R36, R71). -/
def writeEvents (bs : List Byte) : List Event :=
  bs.flatMap fun b =>
    [b.getLsbD 0, b.getLsbD 1, b.getLsbD 2, b.getLsbD 3, b.getLsbD 4, b.getLsbD 5, b.getLsbD 6, b.getLsbD 7].flatMap
      writeSlotEvents ++ [.delay 30]

/-- The six events of a read slot that sampled `b` (R72). -/
def readSlotEvents (b : Bool) : List Event := [.driveLow, .delay 9, .release, .delay 15, .sample b, .delay 60]

/-! ### What the slave answers, in closed form -/

/-- The slave's answers to `n` read slots from the `off`-th coming one. -/
def answers (s : State) (off n : Nat) : List Bool := (List.range n).map fun k => slaveAnswer s (off + k)

/-- The number whose bit 0 is the first bit of the list (R36). -/
def bitsValue : List Bool → Nat
  | [] => 0
  | b :: bs => b.toNat + 2 * bitsValue bs

/-- The `count` bytes the slave answers from the `off`-th coming read slot, eight slots a byte, first sample bit 0 (R36, R73). -/
def answerBytes (s : State) (off count : Nat) : List Byte :=
  (List.range count).map fun j => BitVec.ofNat 8 (bitsValue (answers s (off + 8 * j) 8))

/-- The events of reading `count` bytes from the `off`-th coming slot: one atomic section (R73). -/
def readEvents (s : State) (off count : Nat) : List Event :=
  .atomicBegin :: (answers s off (8 * count)).flatMap readSlotEvents ++ [.atomicEnd]

/-- The events of `n` attempts at reading `count` bytes: `each` and the read in every attempt, a sleep of 1000 ms between two
attempts (R82). -/
def attemptEvents (s : State) (each : List Event) (count : Nat) : Nat → List Event
  | 0 => []
  | 1 => each ++ readEvents s 0 count
  | n + 2 => attemptEvents s each count (n + 1) ++ .sleep 1000 :: each ++ readEvents s (8 * count * (n + 1)) count

/-- The bytes of attempt `n`, counted from 1 (R82). -/
def attemptBytes (s : State) (count n : Nat) : List Byte := answerBytes s (8 * count * (n - 1)) count

/-- Attempt `n` is the last one: no earlier attempt was valid, and `n` is valid or the last allowed (R82). -/
def stopsAt (s : State) (count n : Nat) : Prop :=
  1 ≤ n ∧ n ≤ (if s.crcResend then 20 else 1) ∧
    (∀ j, 1 ≤ j → j < n → crcMatches (attemptBytes s count j) = false) ∧
    (crcMatches (attemptBytes s count n) = true ∨ n = if s.crcResend then 20 else 1)

/-- The state after `n` attempts at reading `count` bytes: line released, the last attempt's bytes in the datapath, every
sample drawn, the trace grown by `events` (R73, R82). -/
def afterAttempts (s : State) (tx : List Byte) (count n : Nat) (events : List Event) : State :=
  { s with
    lineMode := .input
    tx := tx
    rx := attemptBytes s count n
    acc := (attemptBytes s count n).getLastD 0
    crc := crc8 (attemptBytes s count n).dropLast
    crcOk := crcMatches (attemptBytes s count n)
    attempt := n
    slotBit := slaveAnswer s (8 * count * n - 1)
    slave := s.slave.drop (8 * count * n)
    draws := s.draws + 8 * count * n
    trace := s.trace ++ events }

/-- The end of a command that queues `r`: the record and the accepted length, or, with 128 records queued, QueueFull and no
other change (R79, R80). -/
def endWithRecord (r : Record) (s : State) : State :=
  if s.queue.length = 128 then { s with ret := .error .queueFull, seq := .idle }
  else { s with queue := s.queue ++ [r], ret := .count s.cbLen, seq := .idle }

/-- The lead-in of a transaction: reset, the bytes `tx`, a wait (R91, R93). -/
def leadEvents (tx : List Byte) (wait : Nat) : List Event := resetEvents ++ writeEvents tx ++ [.delay wait]

/-- Every retry scope's attempts (R81, R82): under WHOLE_TRANSACTION the lead-in is in every attempt, under READ_ONLY it runs
once, before the first. -/
def retryEvents (scope : RetryScope) (s : State) (lead : List Event) (count n : Nat) : List Event :=
  match scope with
  | .wholeTransaction => attemptEvents s lead count n
  | .readOnly => lead ++ attemptEvents s [] count n

/-- Push a list of records one after another; whether every push succeeded, and the queue (R101). -/
def pushAll : List Record → List Record → Bool × List Record
  | [], q => (true, q)
  | r :: rs, q =>
    let (ok, q') := pushQueue r q
    let (oks, q'') := pushAll rs q'
    (ok && oks, q'')

/-- Pop `n` times: the answers in order, and the queue left (R101). -/
def popTimes : Nat → List Record → List (Option Record) × List Record
  | 0, q => ([], q)
  | n + 1, q =>
    let (r, q') := popQueue q
    let (rs, q'') := popTimes n q'
    (r :: rs, q'')

/-- A command buffer holding `bytes` at offset 0, and the moves left: the state a write of `bytes` executes its command in. -/
def afterCopy (bytes : List Byte) (fails : Bool) (rest : List HostEvent) (s : State) : State :=
  { s with
    host := rest
    seq := .busy (.write bytes fails) 0
    cb := cellsPut s.cb 0 (bytes.take 512)
    cbLen := min bytes.length 512 }

end Sys2Proof.Machine
end

