-- ==== Sys2Proof/Certificates/Slice0/Obligations.lean ====
section
/-! DEFINITION. The statements about the machine, from the numbered rules of spec/. Each is a proposition; none is proved here. -/

open Sys2Proof Sys2Proof.Machine

/-! ### Encoding (30_encoding.md) -/

/-- R49 with R48: the decoder returns a command exactly when its token is there, whatever the order of the tests,
because no two of the fourteen patterns select one byte string. The spec marks the disjointness as its own inference
from the patterns. -/
def Obligations.DecodeSelectsByToken : Prop :=
  (∀ tok bs : List Byte,
    hasToken tok bs = true ↔ tok.length ≤ bs.length ∧ ∀ k, k < tok.length → bs[k]? = tok[k]?) ∧
  (∀ bs, tokens.Pairwise fun a b => ¬(hasToken a bs = true ∧ hasToken b bs = true)) ∧
  ∀ bs,
    (decode bs = .r ↔ hasToken [0x72] bs = true) ∧
    (decode bs = .h ↔ hasToken [0x68] bs = true) ∧
    (decode bs = .l ↔ hasToken [0x6C] bs = true) ∧
    (decode bs = .i ↔ hasToken [0x69] bs = true) ∧
    (decode bs = .ecrc ↔ hasToken [0x45, 0x43, 0x52, 0x43] bs = true) ∧
    (decode bs = .dcrc ↔ hasToken [0x44, 0x43, 0x52, 0x43] bs = true) ∧
    (decode bs = .flush ↔ hasToken [0x46, 0x4C, 0x55, 0x53, 0x48] bs = true) ∧
    (decode bs = .size ↔ hasToken [0x53, 0x49, 0x5A, 0x45] bs = true) ∧
    (decode bs = .ra ↔ hasToken [0x52, 0x41] bs = true) ∧
    (∀ p, decode bs = .ws p ↔ hasToken [0x57, 0x53] bs = true ∧ p = (bs.drop 2).take 3) ∧
    (decode bs = .rs ↔ hasToken [0x52, 0x53] bs = true) ∧
    (decode bs = .ct ↔ hasToken [0x43, 0x54] bs = true) ∧
    (decode bs = .zero ↔ hasToken [0x30] bs = true) ∧
    (decode bs = .one ↔ hasToken [0x31] bs = true) ∧
    (decode bs = .noMatch ↔ ∀ tok ∈ tokens, hasToken tok bs = false)

/-- Decode and encode agree (from R47, R50, R52): every well-formed command is read back from its bytes with its whole
payload; trailing bytes change nothing but an unfilled `WS` payload; and the bytes of a matched command start with its
encoding. -/
def Obligations.DecodeEncodeRoundTrip : Prop :=
  (∀ cmd : Instr, cmd.wf = true → decode (encode cmd) = cmd) ∧
  (∀ (cmd : Instr) (rest : List Byte), cmd.wf = true → cmd ≠ .noMatch → (∀ p, cmd = .ws p → p.length = 3) →
    decode (encode cmd ++ rest) = cmd) ∧
  (∀ bs : List Byte, (decode bs).wf = true ∧ (decode bs ≠ .noMatch → encode (decode bs) <+: bs))

/-- A few table words, written out from R52, read as their commands. The order of a table word's bytes and the zero
padding are the model's reading (entry 1). -/
def Obligations.TableWordsDecode : Prop :=
  decodeTableWord 8 0x72 = some .r ∧ decodeTableWord 32 0x45435243 = some .ecrc ∧
  decodeTableWord 40 0x464C555348 = some .flush ∧ decodeTableWord 16 0x5241 = some .ra ∧
  decodeTableWord 40 0x57534B467F = some (.ws [0x4B, 0x46, 0x7F]) ∧ decodeTableWord 8 0x31 = some .one

/-- R50: the payload is the next up to three bytes, whatever they are. -/
def Obligations.WsPayloadIsRawBytes : Prop :=
  (∀ q : List Byte, decode (0x57 :: 0x53 :: q) = .ws (q.take 3) ∧ (q.take 3).length = min 3 q.length) ∧
  decode [0x57, 0x53, 0x0A] = .ws [0x0A]

/-! ### Fetch, reset and invariants -/

/-- R79, R107: when the idle block's next host call is a write whose copy succeeds, one step copies the accepted bytes
and is the meaning of the command they decode to, at the state after the copy. The host's moves are the model's own
field (entry 2). -/
def Obligations.StepRunsDecodedCommand : Prop :=
  ∀ (s : State) (bytes : List Byte) (rest : List HostEvent),
    s.lineOwned = true → s.seq = .idle → s.atomic = false → s.sessionOpen = true →
    s.host = .call (.write bytes false) :: rest →
    step s = exec (decode (bytes.take 512)) (afterCopy bytes false rest s)

/-- R48: no byte the command buffer held before a step changes anything else the step does. The host's moves are the
model's own field (entry 2). -/
def Obligations.LeftoverBytesNeverMatter : Prop :=
  ∀ (s t : State) (m n : Memory), step { s with cb := m } = .next t →
    ∃ k, step { s with cb := n } = .next { t with cb := k }

/-- R32, R121: a successful initialisation leaves every field the spec gives a value with that value, and the line mode at the
OPEN parameter; after a failed one there is no operating state. That this is a named fault is the model's choice (entry 13). -/
def Obligations.ResetState : Prop :=
  initialise true = .next State.reset ∧ initialise false = .fault .noOperatingState ∧
  State.reset.sessionOpen = false ∧ State.reset.lineOwned = true ∧ State.reset.lineMode = Config.initLineMode ∧
  State.reset.crcResend = false ∧ State.reset.queue = [] ∧ State.reset.cbLen = 0 ∧ State.reset.atomic = false ∧
  State.reset.seq = .idle ∧ State.reset.trace = []

/-- The state after initialisation meets the invariant. The values of the datapath registers and the host's empty list
of moves are the model's choice (entries 2, 11). -/
def Obligations.ResetMeetsTheInvariant : Prop := State.reset.Inv

/-- Every step from a state that meets the invariant ends in one that does: the block is idle again, no atomic section
is held (R66), the queue is within its capacity (R101), the command buffer is canonical and written up to its length.
The host's moves are the model's own field (entry 2). A step ends idle because a whole host call is one step (R27). -/
def Obligations.StepKeepsTheInvariant : Prop :=
  ∀ s t : State, s.Inv → step s = .next t → t.Inv

/-! ### Line primitives and the transceiver (40_line_and_timing.md, 41_bit_transceiver.md) -/

/-- R58, R59, R60: each line operation sets the mode, emits its event and writes nothing else. -/
def Obligations.LineOperations : Prop :=
  ∀ s : State, s.lineOwned = true →
    line .driveLow s = .next { s with lineMode := .driveLow, trace := s.trace ++ [.driveLow] } ∧
    line .driveHigh s = .next { s with lineMode := .driveHigh, trace := s.trace ++ [.driveHigh] } ∧
    line .release s = .next { s with lineMode := .input, trace := s.trace ++ [.release] }

/-- R23, R57: with no owned line, a line operation and a step of the machine have no next state. That a missing
operating state is a named fault is the model's choice (entry 13). -/
def Obligations.UnownedLineStops : Prop :=
  ∀ s : State, s.lineOwned = false →
    step s = .fault .noOperatingState ∧ ∀ o, line o s = .fault .noOperatingState

/-- R65, R64, R66: an atomic section opens only when none is held and closes only when one is; a sleep inside one is a
fault; otherwise each writes the flag and its event, and nothing else; and while one is held no host call begins. That
a call begun then is the fault `atomicViolation`, and the host's moves, are the model's choice (entries 2, 18). -/
def Obligations.AtomicSection : Prop :=
  ∀ s : State,
    (s.atomic = true → atomicBegin s = .fault .atomicViolation ∧
      (∀ ms, sleep ms s = .fault .atomicViolation) ∧
      atomicEnd s = .next { s with atomic := false, trace := s.trace ++ [.atomicEnd] } ∧
      ∀ c rest, s.lineOwned = true → s.seq = .idle → s.host = .call c :: rest → step s = .fault .atomicViolation) ∧
    (s.atomic = false → atomicEnd s = .fault .atomicViolation ∧
      (∀ ms, sleep ms s = .next { s with trace := s.trace ++ [.sleep ms] }) ∧
      atomicBegin s = .next { s with atomic := true, trace := s.trace ++ [.atomicBegin] })

/-- R68: a bus reset from any line mode, slave or no slave: its five events, and the line released. -/
def Obligations.ResetSequence : Prop :=
  ∀ s : State, s.lineOwned = true →
    runPrims resetOps s = .next { s with
      lineMode := .input
      trace := s.trace ++ [.driveLow, .delay 500, .driveHigh, .release, .delay 500] }

/-- R71 (with R36, R70): writing a non-empty byte list sends every bit, bit 0 first, in a slot of its own, with the gap after
every byte; 49 events a byte; the line ends released. The empty list is refused. -/
def Obligations.WriteBitsSendsLsbFirst : Prop :=
  (∀ (s : State) (tx : List Byte), s.lineOwned = true → s.atomic = false → tx ≠ [] →
    runPrims (writeBitsOps tx) s = .next { s with
      lineMode := .input
      tx := tx
      trace := s.trace ++ writeEvents tx }) ∧
  (∀ tx : List Byte, (writeEvents tx).length = 49 * tx.length) ∧
  ∀ s : State, runPrims (writeBitsOps []) s = .refused .emptyWrite

/-- R73 (with R36, R72, R77): reading `count` bytes assembles the slave's answers, first sample bit 0, inside one
atomic section; then the CRC of all but the last byte is compared with the last. A count of 0 is refused. The slave's
answers are the model's own field and free values (entry 4), the registers keep their values (entry 11), and so does
the last slot's bit (entry 28). -/
def Obligations.ReadBitsAssemblesAnswers : Prop :=
  (∀ (s : State) (count : Nat), s.lineOwned = true → s.atomic = false → 1 ≤ count →
    runPrims (readBitsOps count) s = .next { s with
      lineMode := .input
      rx := answerBytes s 0 count
      slotBit := slaveAnswer s (8 * count - 1)
      acc := (answerBytes s 0 count).getLastD 0
      crc := crc8 (answerBytes s 0 count).dropLast
      crcOk := decide (crc8 (answerBytes s 0 count).dropLast = (answerBytes s 0 count).getLastD 0)
      slave := s.slave.drop (8 * count)
      draws := s.draws + 8 * count
      trace := s.trace ++ readEvents s 0 count }) ∧
  (∀ (s : State) (count : Nat), (answerBytes s 0 count).length = count ∧
    (readEvents s 0 count).length = 1 + 48 * count + 1) ∧
  ∀ s : State, runPrims (readBitsOps 0) s = .refused .emptyRead

/-- R74: when the slave's coming answers are the bits of a byte list in wire order, reading as many bytes gives that
list. The spec marks the rule as its own inference; the slave's answers are the model's own field (entry 4). -/
def Obligations.EchoRoundTrip : Prop :=
  ∀ (s : State) (tx : List Byte) (rest : List Bool), s.lineOwned = true → s.atomic = false → tx ≠ [] →
    s.slave = tx.flatMap wireBits ++ rest →
    ∃ t, runPrims (writeBitsOps tx ++ readBitsOps tx.length) s = .next t ∧ t.rx = tx ∧ t.slave = rest ∧
      (t.crcOk = true ↔ crc8 tx.dropLast = tx.getLastD 0)

/-! ### The CRC8 validator (42_crc8.md) -/

/-- R76, R78: the laws that hold for every table; the block's own `crc8` starts at 0 and folds byte after byte through the
block's table, whatever that table holds (entry 7); and the check of R77. -/
def Obligations.CrcLaws : Prop :=
  (∀ T : Byte → Byte, crc8With T [] = 0 ∧
    (∀ xs b, crc8With T (xs ++ [b]) = T (crc8With T xs ^^^ b)) ∧
    (∀ xs, crc8With T (xs ++ [crc8With T xs]) = T 0)) ∧
  crc8 [] = 0 ∧ (∀ xs b, crc8 (xs ++ [b]) = Config.crc8Table (crc8 xs ^^^ b)) ∧
  (∀ xs, crc8 (xs ++ [crc8 xs]) = Config.crc8Table 0) ∧
  ∀ (xs : List Byte) (b : Byte), crcMatches (xs ++ [b]) = true ↔ crc8 xs = b

/-! ### Line commands (43_dispatcher.md) -/

/-- R83: `r` is chosen by byte 0 alone, resets the bus and then queues its echo; a full queue is an error after the reset. -/
def Obligations.CommandReset : Prop :=
  (∀ rest, decode (0x72 :: rest) = .r) ∧
  ∀ s : State, s.lineOwned = true →
    exec .r s = .next (endWithRecord (recordOf [0x72])
      { s with lineMode := .input, trace := s.trace ++ [.driveLow, .delay 500, .driveHigh, .release, .delay 500] })

/-- R84, R85, R86: `h`, `l` and `i` are chosen by byte 0 alone, move the line and then queue their echo; a full queue is an
error after the line change. -/
def Obligations.CommandsDriveAndEcho : Prop :=
  (∀ rest, decode (0x68 :: rest) = .h ∧ decode (0x6C :: rest) = .l ∧ decode (0x69 :: rest) = .i) ∧
  ∀ s : State, s.lineOwned = true →
    exec .h s = .next (endWithRecord (recordOf [0x68])
      { s with lineMode := .driveHigh, trace := s.trace ++ [.driveHigh] }) ∧
    exec .l s = .next (endWithRecord (recordOf [0x6C])
      { s with lineMode := .driveLow, trace := s.trace ++ [.driveLow] }) ∧
    exec .i s = .next (endWithRecord (recordOf [0x69])
      { s with lineMode := .input, trace := s.trace ++ [.release] })

/-- R95, R96: `0` and `1` drive the line, queue nothing and raise nothing, whatever the queue holds. -/
def Obligations.CommandsDriveWithoutEcho : Prop :=
  (∀ rest, decode (0x30 :: rest) = .zero ∧ decode (0x31 :: rest) = .one) ∧
  ∀ s : State, s.lineOwned = true →
    exec .zero s = .next { s with
      lineMode := .driveLow, trace := s.trace ++ [.driveLow], ret := .count s.cbLen, seq := .idle } ∧
    exec .one s = .next { s with
      lineMode := .driveHigh, trace := s.trace ++ [.driveHigh], ret := .count s.cbLen, seq := .idle }

/-! ### Control commands (43_dispatcher.md) -/

/-- R87, R88: `ECRC` and `DCRC` set and clear CrcResendMode and then queue the byte `'1'`; a full queue is an error after the
mode has changed; the line and the trace are untouched. -/
def Obligations.CommandsResendMode : Prop :=
  (∀ rest, decode (0x45 :: 0x43 :: 0x52 :: 0x43 :: rest) = .ecrc ∧ decode (0x44 :: 0x43 :: 0x52 :: 0x43 :: rest) = .dcrc) ∧
  ∀ s : State,
    exec .ecrc s = .next (endWithRecord (recordOf [0x31]) { s with crcResend := true }) ∧
    exec .dcrc s = .next (endWithRecord (recordOf [0x31]) { s with crcResend := false })

/-- R89: `FLUSH` empties the queue, pushes nothing and raises nothing; four of its five bytes are no match. -/
def Obligations.CommandFlush : Prop :=
  (∀ rest, decode (0x46 :: 0x4C :: 0x55 :: 0x53 :: 0x48 :: rest) = .flush) ∧
  decode [0x46, 0x4C, 0x55, 0x53] = .noMatch ∧
  ∀ s : State, exec .flush s = .next { s with queue := [], ret := .count s.cbLen, seq := .idle }

/-- R90: `SIZE` queues the length the queue had, in four bytes of which the last three are zero; on a full queue it is an
error and nothing is queued. -/
def Obligations.CommandSize : Prop :=
  (∀ rest, decode (0x53 :: 0x49 :: 0x5A :: 0x45 :: rest) = .size) ∧
  ∀ s : State, s.queue.length ≤ 128 →
    exec .size s = .next (endWithRecord (recordOf [BitVec.ofNat 8 s.queue.length, 0, 0, 0]) s)

/-- R97: `NOMATCH` is exactly the input no pattern selects, the empty write among it; it changes nothing, and the write still
returns its accepted length. -/
def Obligations.CommandNoMatch : Prop :=
  decode [] = .noMatch ∧ decode [0x65, 0x63, 0x72, 0x63] = .noMatch ∧ decode [0x52] = .noMatch ∧
  decode [0x46, 0x4C, 0x55, 0x53] = .noMatch ∧ decode [0x32] = .noMatch ∧ decode [0x78, 0x79, 0x7A] = .noMatch ∧
  decode [0x68, 0x65, 0x6C, 0x6C, 0x6F] ≠ .noMatch ∧
  (∀ bs, decode bs = .noMatch ↔ ∀ tok ∈ tokens, hasToken tok bs = false) ∧
  ∀ s : State, exec .noMatch s = .next { s with ret := .count s.cbLen, seq := .idle }

/-! ### Slave transactions (43_dispatcher.md) -/

/-- R81, R82: the retry policy under both scopes. With `n` the attempt the policy stops at, the checked read makes
exactly `n` attempts, sleeps 1000 ms between two of them and never after the last, and leaves the bytes of attempt
`n`; such an `n` of at most 20 (1 with the mode off) always exists. The slave's answers are the model's own field and
free values (entry 4), the registers keep their values (entry 11), and so does the last slot's bit (entry 28). -/
def Obligations.RetryPolicy : Prop :=
  (∀ (s : State) (count : Nat), ∃ n, stopsAt s count n) ∧
  ∀ (scope : RetryScope) (s : State) (tx : List Byte) (wait count n : Nat),
    s.lineOwned = true → s.atomic = false → tx ≠ [] → 1 ≤ count → stopsAt s count n →
    checkedRead scope (resetOps ++ writeBitsOps tx ++ [.delay wait]) count s =
      .next (afterAttempts s tx count n (retryEvents scope s (leadEvents tx wait) count n))

/-- R91: `RA` resets, writes 0x33, waits 500 µs and reads eight bytes under the retry policy, repeating all of it in
every attempt; it queues the last attempt's eight bytes, the CRC byte last, whatever the CRC; a full queue is an error
after all attempts; one attempt is 441 events. The slave's answers are the model's own field and free values (entry
4), the registers keep their values (entry 11), and so does the last slot's bit (entry 28). -/
def Obligations.CommandReadAddress : Prop :=
  (∀ rest, decode (0x52 :: 0x41 :: rest) = .ra) ∧
  (∀ (s : State) (n : Nat), s.lineOwned = true → s.atomic = false → stopsAt s 8 n →
    exec .ra s = .next (endWithRecord (recordOf (attemptBytes s 8 n))
      (afterAttempts s [0x33] 8 n (attemptEvents s (leadEvents [0x33] 500) 8 n)))) ∧
  ∀ s : State, (∃ n, stopsAt s 8 n) ∧ (attemptEvents s (leadEvents [0x33] 500) 8 1).length = 441

/-- R92: `WS` resets, writes CC 4E and the payload, waits 600 µs, queues nothing and raises nothing. That `tx` still
holds the bytes written after the call has ended is the model's choice (entry 11). -/
def Obligations.CommandWriteScratchpad : Prop :=
  (∀ q : List Byte, decode (0x57 :: 0x53 :: q) = .ws (q.take 3)) ∧
  ∀ (s : State) (p : List Byte), s.lineOwned = true → s.atomic = false → p.length ≤ 3 →
    exec (.ws p) s = .next { s with
      lineMode := .input
      tx := [0xCC, 0x4E] ++ p
      trace := s.trace ++ leadEvents ([0xCC, 0x4E] ++ p) 600
      ret := .count s.cbLen
      seq := .idle } ∧
    (leadEvents ([0xCC, 0x4E] ++ p) 600).length = 5 + 49 * (2 + p.length) + 1

/-- R93: `RS` resets, writes CC BE, waits 600 µs and reads nine bytes under the retry policy; it queues the first
eight of the last attempt and drops the ninth; a full queue is an error after all attempts; one attempt is 538 events.
The slave's answers are the model's own field and free values (entry 4), the registers keep their values (entry 11),
and so does the last slot's bit (entry 28). -/
def Obligations.CommandReadScratchpad : Prop :=
  (∀ rest, decode (0x52 :: 0x53 :: rest) = .rs) ∧
  (∀ (s : State) (n : Nat), s.lineOwned = true → s.atomic = false → stopsAt s 9 n →
    exec .rs s = .next (endWithRecord (recordOf ((attemptBytes s 9 n).take 8))
      (afterAttempts s [0xCC, 0xBE] 9 n (attemptEvents s (leadEvents [0xCC, 0xBE] 600) 9 n)))) ∧
  ∀ s : State, (∃ n, stopsAt s 9 n) ∧ (attemptEvents s (leadEvents [0xCC, 0xBE] 600) 9 1).length = 538

/-- R94: `CT` resets, writes CC 44, does not wait, and queues the byte `'-'`; a full queue is an error after the
write. That `tx` still holds the bytes written after the call has ended is the model's choice (entry 11). -/
def Obligations.CommandConvert : Prop :=
  (∀ rest, decode (0x43 :: 0x54 :: rest) = .ct) ∧
  ∀ s : State, s.lineOwned = true → s.atomic = false →
    exec .ct s = .next (endWithRecord (recordOf [0x2D])
      { s with
        lineMode := .input
        tx := [0xCC, 0x44]
        trace := s.trace ++ resetEvents ++ writeEvents [0xCC, 0x44] }) ∧
    (resetEvents ++ writeEvents [0xCC, 0x44]).length = 5 + 98

/-! ### All commands -/

/-- Every command, in every form and whatever the queue, the line mode and the slave's answers, ends in a next state
when the line is owned and no atomic section is held: no command stops. A payload longer than three bytes is cut
(entry 27). -/
def Obligations.EveryCommandCompletes : Prop :=
  ∀ (cmd : Instr) (s : State), s.lineOwned = true → s.atomic = false → ∃ t, exec cmd s = .next t ∧ t.seq = .idle

/-- R79, R80: a command returns the accepted length, or QueueFull exactly when it queues a result and 128 records are queued;
it adds at most one record, and that record is well formed. -/
def Obligations.ReturnValueAndOneRecord : Prop :=
  ∀ (cmd : Instr) (s t : State), exec cmd s = .next t →
    t.ret = (if pushesResult cmd = true ∧ s.queue.length = 128 then .error .queueFull else .count s.cbLen) ∧
    (cmd ≠ .flush → t.queue = s.queue ∨
      ∃ r, r.wf = true ∧ t.queue = s.queue ++ [r] ∧ pushesResult cmd = true ∧ s.queue.length ≠ 128)

/-- R80, R111: on a full queue a command does everything it does otherwise, and only the record is lost. -/
def Obligations.QueueFullUndoesNothing : Prop :=
  ∀ (cmd : Instr) (s u : State), pushesResult cmd = true → s.queue.length = 128 →
    exec cmd { s with queue := [] } = .next u →
    exec cmd s = .next { u with queue := s.queue, ret := .error .queueFull }

/-- The frame of every command (R18, R19, R21, R26, R44): the command buffer, its length, the session, the line handle
and the host's moves never change; the mode bit changes only under `ECRC` and `DCRC`; the queue only under the
commands that push and `FLUSH`; the control commands touch neither the line nor the datapath; only the transactions
write `tx`, and only the checked reads write `acc`, `crc`, `crc_ok`, `attempt`, `rx` and the last slot's bit or draw
samples. The host's moves, the slave's answers and the count of draws are the model's own fields (entries 2, 4), and
the last slot's bit is the pseudocode's variable (entry 28). As the command buffer is unchanged, every byte of it
reads as before. -/
def Obligations.CommandFrame : Prop :=
  ∀ (cmd : Instr) (s t : State), exec cmd s = .next t →
    t.cb = s.cb ∧ t.cbLen = s.cbLen ∧ t.sessionOpen = s.sessionOpen ∧ t.lineOwned = s.lineOwned ∧ t.host = s.host ∧
    t.atomic = s.atomic ∧ t.seq = .idle ∧
    (cmd ≠ .ecrc → cmd ≠ .dcrc → t.crcResend = s.crcResend) ∧
    (cmd ≠ .flush → pushesResult cmd = false → t.queue = s.queue) ∧
    (cmd ∈ [.ecrc, .dcrc, .flush, .size, .noMatch] → t.lineMode = s.lineMode ∧ t.trace = s.trace) ∧
    (cmd ∉ [.ra, .rs, .ct] → (∀ p, cmd ≠ .ws p) → t.tx = s.tx) ∧
    (cmd ∉ [.ra, .rs] → t.acc = s.acc ∧ t.crc = s.crc ∧ t.crcOk = s.crcOk ∧ t.attempt = s.attempt ∧ t.rx = s.rx ∧
      t.slotBit = s.slotBit ∧ t.slave = s.slave ∧ t.draws = s.draws)

/-- R130: the line mode on entry does not change what a transaction command does. The spec marks this as its own
inference from R68. -/
def Obligations.EntryLineModeIrrelevant : Prop :=
  ∀ (cmd : Instr) (s : State) (m : LineMode), (cmd ∈ [.r, .ra, .rs, .ct] ∨ ∃ p, cmd = .ws p) →
    exec cmd { s with lineMode := m } = exec cmd s

/-- R133: the nominal time of every command, from the durations of its trace. The spec marks the totals as its own
inference. -/
def Obligations.NominalDurations : Prop :=
  ∀ (cmd : Instr) (s t : State), exec cmd s = .next t → ∃ events, t.trace = s.trace ++ events ∧
    (cmd = .r → traceMicros events = 1000) ∧
    (cmd ∈ [.h, .l, .i, .zero, .one, .ecrc, .dcrc, .flush, .size, .noMatch] → traceMicros events = 0) ∧
    (cmd = .ct → traceMicros events = 2212) ∧
    (∀ p, cmd = .ws p → p.length ≤ 3 → traceMicros events = 2796 + traceMicros (writeEvents p)) ∧
    (cmd = .ra → ∃ n, stopsAt s 8 n ∧ traceMicros events = 7474 * n + 1000000 * (n - 1)) ∧
    (cmd = .rs → ∃ n, stopsAt s 9 n ∧ traceMicros events = 8828 * n + 1000000 * (n - 1))

/-! ### The result queue (44_result_queue.md, 20_memory.md) -/

/-- R98, R99: Push fails without a change on 128 records and appends otherwise; Pop takes the oldest record, and answers none
without a change on an empty queue. -/
def Obligations.PushAndPop : Prop :=
  (∀ (r : Record) (q : List Record), q.length = 128 → pushQueue r q = (false, q)) ∧
  (∀ (r : Record) (q : List Record), q.length < 128 → pushQueue r q = (true, q ++ [r])) ∧
  popQueue [] = (none, []) ∧ ∀ (r : Record) (q : List Record), popQueue (r :: q) = (some r, q)

/-- R101: up to 128 records pushed into an empty queue all go in and come out in the order they went in; one more push fails
and leaves the queue as it was. -/
def Obligations.QueueIsFifo : Prop :=
  (∀ rs : List Record, rs.length ≤ 128 →
    pushAll rs [] = (true, rs) ∧ popTimes rs.length rs = (rs.map some, [])) ∧
  ∀ (rs : List Record) (r : Record), rs.length = 128 → pushAll (rs ++ [r]) [] = (false, rs)

/-- R35: the ring buffer does what the abstract queue does, push by push and pop by pop, and keeps its ranges. -/
def Obligations.RingRefinesQueue : Prop :=
  ringReset.wf = true ∧ ringQueue ringReset = [] ∧
  ∀ r : Ring, r.wf = true →
    (∀ x, (ringPush x r).2.wf = true ∧
      ((ringPush x r).1, ringQueue (ringPush x r).2) = pushQueue x (ringQueue r)) ∧
    (ringPop r).2.wf = true ∧ ((ringPop r).1, ringQueue (ringPop r).2) = popQueue (ringQueue r)

/-! ### Host calls (45_host_interface.md) -/

/-- R104: `open` raises SessionBusy exactly when a session is open, and otherwise opens it, in one step that touches
nothing else. The host's moves are the model's own field (entry 2). -/
def Obligations.OpenSession : Prop :=
  ∀ (s : State) (rest : List HostEvent), s.lineOwned = true → s.seq = .idle → s.atomic = false →
    s.host = .call .openSession :: rest →
    (s.sessionOpen = true → step s = .next { s with host := rest, ret := .error .sessionBusy }) ∧
    (s.sessionOpen = false → step s = .next { s with host := rest, sessionOpen := true, ret := .ok })

/-- R105: `release` always clears the session and raises nothing, in one step that touches nothing else. The host's
moves are the model's own field (entry 2). -/
def Obligations.ReleaseSession : Prop :=
  ∀ (s : State) (rest : List HostEvent), s.lineOwned = true → s.seq = .idle → s.atomic = false →
    s.host = .call .releaseSession :: rest →
    step s = .next { s with host := rest, sessionOpen := false, ret := .ok }

/-- R107: a write whose copy fails leaves the state unchanged and raises CopyFault; any other accepts `min(L, 512)`
bytes, which are what the command runs on, sets `cb_len` and leaves the bytes beyond them as they were. The host's
moves are the model's own field (entry 2). The draw of a failed copy is carried in the call (entry 6). -/
def Obligations.WriteCopiesOrFaults : Prop :=
  ∀ (s : State) (bytes : List Byte) (rest : List HostEvent), s.lineOwned = true → s.seq = .idle → s.atomic = false →
    s.sessionOpen = true →
    (s.host = .call (.write bytes true) :: rest → step s = .next { s with host := rest, ret := .error .copyFault }) ∧
    (s.host = .call (.write bytes false) :: rest → ∃ t, step s = .next t ∧
      t.cbLen = min bytes.length 512 ∧
      (∀ a, a < min bytes.length 512 → bytes[a]? = some (cellGet t.cb a)) ∧
      (∀ a, min bytes.length 512 ≤ a → cellGet t.cb a = cellGet s.cb a) ∧
      (t.ret = .count (min bytes.length 512) ∨ t.ret = .error .queueFull))

/-- R108: a read pops one record and returns at most `min(capacity, size)` bytes of it; a failed copy loses the
record; an empty queue gives zero bytes and changes nothing. The host's moves are the model's own field (entry 2). The
draw of a failed copy is carried in the call (entry 6). -/
def Obligations.ReadReturnsOldestRecord : Prop :=
  ∀ (s : State) (capacity : Nat) (fails : Bool) (rest : List HostEvent),
    s.lineOwned = true → s.seq = .idle → s.atomic = false → s.sessionOpen = true →
    s.host = .call (.read capacity fails) :: rest →
    (s.queue = [] → step s = .next { s with host := rest, ret := .empty } ∧ visibleBytes .empty = []) ∧
    ∀ r q, s.queue = r :: q →
      (fails = true → step s = .next { s with host := rest, queue := q, ret := .error .copyFault }) ∧
      (fails = false →
        step s = .next { s with host := rest, queue := q, ret := .data (r.data.take (min capacity r.size)) })

/-- R106: without an open session a host has no write and no read. That such a move is a named fault is the model's
choice (entries 2, 15). -/
def Obligations.NoMoveWithoutSession : Prop :=
  ∀ (s : State) (c : HostCall) (rest : List HostEvent), s.lineOwned = true → s.seq = .idle → s.atomic = false →
    s.sessionOpen = false → s.host = .call c :: rest →
    ((∃ bytes fails, c = .write bytes fails) ∨ ∃ capacity fails, c = .read capacity fails) →
    step s = .fault .noSession

/-- R42, R131: two overlapping writes or two overlapping reads are the SPSC violation. The model's choices: overlapping
calls are a move of its own host field, any other overlap is the fault `callInFlight` (R103 gives such a host no move;
entries 2, 16), and the overlap is named before a held atomic section or a missing session, an order the rules do not
give (entry 19). -/
def Obligations.OverlapIsAFault : Prop :=
  ∀ (s : State) (rest : List HostEvent), s.lineOwned = true → s.seq = .idle →
    (∀ x y f g, s.host = .overlap (.write x f) (.write y g) :: rest → step s = .fault .spscViolation) ∧
    (∀ x y f g, s.host = .overlap (.read x f) (.read y g) :: rest → step s = .fault .spscViolation) ∧
    (∀ a b, s.host = .overlap a b :: rest → (¬ ∃ x f y g, a = .write x f ∧ b = .write y g) →
      (¬ ∃ x f y g, a = .read x f ∧ b = .read y g) → step s = .fault .callInFlight)

/-- R123: after teardown the line is not owned, and the block takes no further step. That a step without an operating
state is a named fault, the mode left, and that the move is taken even while the atomic section is held, are the model's
choice (entries 13, 14). -/
def Obligations.TeardownEndsTheMachine : Prop :=
  ∀ (s : State) (rest : List HostEvent), s.lineOwned = true → s.seq = .idle → s.host = .teardown :: rest →
    ∃ t, step s = .next t ∧ t.lineOwned = false ∧ t.trace = s.trace ∧ step t = .fault .noOperatingState

/-- R41, R127: with an empty queue, a read issued after a write that queues a result returns that write's record. The
host's moves are the model's own field (entry 2). -/
def Obligations.ReadAfterWriteSeesItsRecord : Prop :=
  ∀ (s t : State) (bytes : List Byte) (capacity : Nat) (rest : List HostEvent),
    s.lineOwned = true → s.seq = .idle → s.atomic = false → s.sessionOpen = true → s.queue = [] →
    s.host = .call (.write bytes false) :: .call (.read capacity false) :: rest →
    pushesResult (decode (bytes.take 512)) = true → step s = .next t →
    ∃ r u, t.queue = [r] ∧ step t = .next u ∧ u.queue = [] ∧ u.ret = .data (r.data.take (min capacity r.size))

/-! ### Whole-machine rules -/

/-- R21: CrcResendMode changes only in a write of `ECRC`, to true, or of `DCRC`, to false. The host's moves are the
model's own field (entry 2). -/
def Obligations.OnlyModeCommandsChangeResend : Prop :=
  ∀ s t : State, s.seq = .idle → step s = .next t → t.crcResend ≠ s.crcResend →
    ∃ bytes rest, s.host = .call (.write bytes false) :: rest ∧
      ((decode (bytes.take 512) = .ecrc ∧ t.crcResend = true) ∨
        (decode (bytes.take 512) = .dcrc ∧ t.crcResend = false))

/-- R28: no step removes an event from the line trace, in any state. -/
def Obligations.TraceOnlyGrows : Prop :=
  ∀ s t : State, step s = .next t → s.trace <+: t.trace

/-- R22, R122: only `open` and `release` change the session flag. The host's moves are the model's own field (entry
2). -/
def Obligations.OnlyOpenAndReleaseChangeSession : Prop :=
  ∀ s t : State, s.seq = .idle → step s = .next t → t.sessionOpen ≠ s.sessionOpen →
    ∃ rest, s.host = .call .openSession :: rest ∨ s.host = .call .releaseSession :: rest

/-- R27: a host call run primitive by primitive from BUSY(call, 0) stays in that call until it ends, and ends in the
very outcome of the big step: the same state and the same trace. The code of a call and the point where the retry loop
jumps back are the model's reading of the pseudocode (entry 17). -/
def Obligations.BigStepIsItsMicroSteps : Prop :=
  ∀ (c : HostCall) (s : State), s.lineOwned = true → s.atomic = false → (needsSession c = true → s.sessionOpen = true) →
    ∃ n, core.run (n + 1) { s with seq := .busy c 0 } = startCall c s ∧
      ∀ m, m ≤ n → ∃ t k, core.run m { s with seq := .busy c 0 } = .next t ∧ t.seq = .busy c k

/-- R31: the register view. In every state the three mode codes, the control bits and the session bit hold what they
name, and the reserved mode code never occurs; the count and length fields hold theirs within the bounds of the queue
(R25) and of the command buffer (R26). -/
def Obligations.RegisterView : Prop :=
  lineModeField .input = 0b00 ∧ lineModeField .driveLow = 0b01 ∧ lineModeField .driveHigh = 0b10 ∧
  ∀ s : State,
    (ctrlField s).getLsbD 0 = s.crcResend ∧ (ctrlField s).getLsbD 1 = s.atomic ∧
    (sessField s).getLsbD 0 = s.sessionOpen ∧ lineModeField s.lineMode ≠ 0b11 ∧
    (s.queue.length ≤ 128 → (qstatField s).toNat = s.queue.length) ∧
    (s.cbLen ≤ 512 → (cbLenField s).toNat = s.cbLen)

/-- R110: the codes of the kinds, and the kind of every outcome of a call: only the three errors are errors, a read of an empty
queue is a status and shows the host zero bytes (R108), and a CRC mismatch is a status of the datapath that no call returns.
The outcome's form is the model's own (entry 12). -/
def Obligations.StatusKindsAndCodes : Prop :=
  statusCode .ok = 0 ∧ statusCode .sessionBusy = 1 ∧ statusCode .queueFull = 2 ∧ statusCode .copyFault = 3 ∧
  statusCode .queueEmpty = 4 ∧ statusCode .crcMismatch = 5 ∧
  resultKind (.error .sessionBusy) = .sessionBusy ∧ resultKind (.error .queueFull) = .queueFull ∧
  resultKind (.error .copyFault) = .copyFault ∧ resultKind .empty = .queueEmpty ∧ resultKind .ok = .ok ∧
  (∀ n, resultKind (.count n) = .ok) ∧ (∀ bs, resultKind (.data bs) = .ok ∧ visibleBytes (.data bs) = bs) ∧
  (∀ c, resultKind c ≠ .crcMismatch) ∧ (∀ c, resultKind c = .queueEmpty → visibleBytes c = []) ∧
  ∀ s : State, crcStatus s = .crcMismatch ↔ s.crcOk = false

/-- R34: a read of the command buffer past `cb_len` is refused, and any other gives the byte at each of its offsets, in
rising order, whatever has been written (a byte nothing has written is a free value: R26, entry 10); a write within the 512 bytes writes its bytes in order and nothing else, and one past them is refused. The names of the two
refusals are the model's, and so is that a write past the buffer is one (entry 26). -/
def Obligations.BufferReadsAndWrites : Prop :=
  (∀ (s : State) (a n : Nat), s.cbLen < a + n → memRead s a n = .refused .readPastLength) ∧
  (∀ (s : State) (a n : Nat), a + n ≤ s.cbLen → ∃ bs, memRead s a n = .next bs ∧ bs.length = n ∧
    ∀ i, i < n → bs[i]? = some (cellGet s.cb (a + i))) ∧
  (∀ (s : State) (a : Nat) (v : List Byte), a + v.length ≤ 512 → ∃ m, memWrite a v s = .next { s with cb := m } ∧
    (∀ i, i < v.length → v[i]? = some (cellGet m (a + i))) ∧
    ∀ b, b < a ∨ a + v.length ≤ b → cellGet m b = cellGet s.cb b) ∧
  ∀ (s : State) (a : Nat) (v : List Byte), 512 < a + v.length → memWrite a v s = .refused .writePastBuffer

/-- R24: the record `rec(b0, …, bk-1)` of up to eight bytes has size `k`, holds those bytes in order, and is zero from the
size on (D20); it is well formed. -/
def Obligations.RecordHoldsItsBytes : Prop :=
  ∀ bs : List Byte, bs.length ≤ 8 →
    (recordOf bs).size = bs.length ∧ (recordOf bs).data = bs ++ List.replicate (8 - bs.length) 0 ∧
    (recordOf bs).wf = true
end

