-- ==== Sys2Proof/Laws/Forms.lean ====
section
/-! SUPPORT. What the closed forms of Safety leave in each field, so that no proof unfolds them. -/

namespace Sys2Proof.Machine

/-! ### `afterAttempts` -/

section
variable (s : State) (tx : List Byte) (count n : Nat) (ev : List Event)

@[simp] theorem afterAttempts_acc : (afterAttempts s tx count n ev).acc = (attemptBytes s count n).getLastD 0 := by rw [afterAttempts]
@[simp] theorem afterAttempts_crc : (afterAttempts s tx count n ev).crc = crc8 (attemptBytes s count n).dropLast := by rw [afterAttempts]
@[simp] theorem afterAttempts_crcOk : (afterAttempts s tx count n ev).crcOk = crcMatches (attemptBytes s count n) := by rw [afterAttempts]
@[simp] theorem afterAttempts_attempt : (afterAttempts s tx count n ev).attempt = n := by rw [afterAttempts]
@[simp] theorem afterAttempts_rx : (afterAttempts s tx count n ev).rx = attemptBytes s count n := by rw [afterAttempts]
@[simp] theorem afterAttempts_tx : (afterAttempts s tx count n ev).tx = tx := by rw [afterAttempts]
@[simp] theorem afterAttempts_slotBit :
    (afterAttempts s tx count n ev).slotBit = slaveAnswer s (8 * count * n - 1) := by rw [afterAttempts]
@[simp] theorem afterAttempts_lineMode : (afterAttempts s tx count n ev).lineMode = .input := by rw [afterAttempts]
@[simp] theorem afterAttempts_atomic : (afterAttempts s tx count n ev).atomic = s.atomic := by rw [afterAttempts]
@[simp] theorem afterAttempts_crcResend : (afterAttempts s tx count n ev).crcResend = s.crcResend := by rw [afterAttempts]
@[simp] theorem afterAttempts_sessionOpen : (afterAttempts s tx count n ev).sessionOpen = s.sessionOpen := by rw [afterAttempts]
@[simp] theorem afterAttempts_lineOwned : (afterAttempts s tx count n ev).lineOwned = s.lineOwned := by rw [afterAttempts]
@[simp] theorem afterAttempts_queue : (afterAttempts s tx count n ev).queue = s.queue := by rw [afterAttempts]
@[simp] theorem afterAttempts_cb : (afterAttempts s tx count n ev).cb = s.cb := by rw [afterAttempts]
@[simp] theorem afterAttempts_cbLen : (afterAttempts s tx count n ev).cbLen = s.cbLen := by rw [afterAttempts]
@[simp] theorem afterAttempts_seq : (afterAttempts s tx count n ev).seq = s.seq := by rw [afterAttempts]
@[simp] theorem afterAttempts_trace : (afterAttempts s tx count n ev).trace = s.trace ++ ev := by rw [afterAttempts]
@[simp] theorem afterAttempts_ret : (afterAttempts s tx count n ev).ret = s.ret := by rw [afterAttempts]
@[simp] theorem afterAttempts_host : (afterAttempts s tx count n ev).host = s.host := by rw [afterAttempts]
@[simp] theorem afterAttempts_slave : (afterAttempts s tx count n ev).slave = s.slave.drop (8 * count * n) := by rw [afterAttempts]
@[simp] theorem afterAttempts_draws : (afterAttempts s tx count n ev).draws = s.draws + 8 * count * n := by rw [afterAttempts]

end

/-! ### `endWithRecord`: only the queue, the result and the sequencer change -/

@[simp] theorem endWithRecord_acc (r : Record) (s : State) : (endWithRecord r s).acc = s.acc := by
  unfold endWithRecord; split <;> rfl
@[simp] theorem endWithRecord_crc (r : Record) (s : State) : (endWithRecord r s).crc = s.crc := by
  unfold endWithRecord; split <;> rfl
@[simp] theorem endWithRecord_crcOk (r : Record) (s : State) : (endWithRecord r s).crcOk = s.crcOk := by
  unfold endWithRecord; split <;> rfl
@[simp] theorem endWithRecord_attempt (r : Record) (s : State) : (endWithRecord r s).attempt = s.attempt := by
  unfold endWithRecord; split <;> rfl
@[simp] theorem endWithRecord_rx (r : Record) (s : State) : (endWithRecord r s).rx = s.rx := by
  unfold endWithRecord; split <;> rfl
@[simp] theorem endWithRecord_tx (r : Record) (s : State) : (endWithRecord r s).tx = s.tx := by
  unfold endWithRecord; split <;> rfl
@[simp] theorem endWithRecord_slotBit (r : Record) (s : State) : (endWithRecord r s).slotBit = s.slotBit := by
  unfold endWithRecord; split <;> rfl
@[simp] theorem endWithRecord_lineMode (r : Record) (s : State) : (endWithRecord r s).lineMode = s.lineMode := by
  unfold endWithRecord; split <;> rfl
@[simp] theorem endWithRecord_atomic (r : Record) (s : State) : (endWithRecord r s).atomic = s.atomic := by
  unfold endWithRecord; split <;> rfl
@[simp] theorem endWithRecord_crcResend (r : Record) (s : State) : (endWithRecord r s).crcResend = s.crcResend := by
  unfold endWithRecord; split <;> rfl
@[simp] theorem endWithRecord_sessionOpen (r : Record) (s : State) : (endWithRecord r s).sessionOpen = s.sessionOpen := by
  unfold endWithRecord; split <;> rfl
@[simp] theorem endWithRecord_lineOwned (r : Record) (s : State) : (endWithRecord r s).lineOwned = s.lineOwned := by
  unfold endWithRecord; split <;> rfl
@[simp] theorem endWithRecord_cb (r : Record) (s : State) : (endWithRecord r s).cb = s.cb := by
  unfold endWithRecord; split <;> rfl
@[simp] theorem endWithRecord_cbLen (r : Record) (s : State) : (endWithRecord r s).cbLen = s.cbLen := by
  unfold endWithRecord; split <;> rfl
@[simp] theorem endWithRecord_seq (r : Record) (s : State) : (endWithRecord r s).seq = .idle := by
  unfold endWithRecord; split <;> rfl
@[simp] theorem endWithRecord_trace (r : Record) (s : State) : (endWithRecord r s).trace = s.trace := by
  unfold endWithRecord; split <;> rfl
@[simp] theorem endWithRecord_host (r : Record) (s : State) : (endWithRecord r s).host = s.host := by
  unfold endWithRecord; split <;> rfl
@[simp] theorem endWithRecord_slave (r : Record) (s : State) : (endWithRecord r s).slave = s.slave := by
  unfold endWithRecord; split <;> rfl
@[simp] theorem endWithRecord_draws (r : Record) (s : State) : (endWithRecord r s).draws = s.draws := by
  unfold endWithRecord; split <;> rfl

/-- With room, the record goes in last and the accepted length is returned (R79, R98). -/
theorem endWithRecord_room (r : Record) (s : State) (h : s.queue.length ≠ 128) :
    (endWithRecord r s).queue = s.queue ++ [r] ∧ (endWithRecord r s).ret = .count s.cbLen := by
  rw [endWithRecord, if_neg h]; exact ⟨rfl, rfl⟩

/-- On a full queue nothing goes in and the call ends in QueueFull (R80). -/
theorem endWithRecord_full (r : Record) (s : State) (h : s.queue.length = 128) :
    (endWithRecord r s).queue = s.queue ∧ (endWithRecord r s).ret = .error .queueFull := by
  rw [endWithRecord, if_pos h]; exact ⟨rfl, rfl⟩

end Sys2Proof.Machine
end

