-- ==== Sys2Proof/Laws/Memory.lean ====
section
/-! SUPPORT. The command buffer: a read after a write gives what was written, a write leaves every other offset alone, and
every write keeps the canonical form. -/

namespace Sys2Proof.Machine

theorem cellFind_cellPut_same (m : Memory) (a : Nat) (v : Byte) : cellFind (cellPut m a v) a = some v := by
  induction m with
  | nil => simp [cellPut, cellFind]
  | cons c m ih =>
    obtain ⟨b, w⟩ := c
    simp only [cellPut]
    split
    · simp [cellFind]
    · split
      · simp [cellFind]
      · next h => simp [cellFind, h, ih]

theorem cellFind_cellPut_other (m : Memory) {a b : Nat} (v : Byte) (h : b ≠ a) :
    cellFind (cellPut m a v) b = cellFind m b := by
  induction m with
  | nil => simp [cellPut, cellFind, h]
  | cons c m ih =>
    obtain ⟨x, w⟩ := c
    simp only [cellPut]
    split
    · simp [cellFind, h]
    · split
      · next h1 h2 => subst h2; simp [cellFind, h]
      · simp [cellFind, ih]

/-- A block write leaves every offset outside the block alone. -/
theorem cellFind_cellsPut_outside (vs : List Byte) :
    ∀ (m : Memory) (a b : Nat), b < a ∨ a + vs.length ≤ b → cellFind (cellsPut m a vs) b = cellFind m b := by
  induction vs with
  | nil => intro m a b _; rfl
  | cons v vs ih =>
    intro m a b h
    simp only [List.length_cons] at h
    rw [cellsPut, ih _ _ _ (by omega), cellFind_cellPut_other _ _ (by omega)]

/-- A block write stores byte `i` of the block at offset `a + i`. -/
theorem cellFind_cellsPut_inside (vs : List Byte) :
    ∀ (m : Memory) (a i : Nat), i < vs.length → cellFind (cellsPut m a vs) (a + i) = vs[i]? := by
  induction vs with
  | nil => intro m a i h; simp at h
  | cons v vs ih =>
    intro m a i h
    cases i with
    | zero =>
      rw [cellsPut, cellFind_cellsPut_outside _ _ _ _ (by omega)]
      simpa using cellFind_cellPut_same m a v
    | succ i =>
      rw [cellsPut, show a + (i + 1) = (a + 1) + i by omega, ih _ _ _ (by simpa using h)]
      simp

/-- A written offset reads as the byte written. -/
theorem cellGet_of_find {m : Memory} {a : Nat} {v : Byte} (h : cellFind m a = some v) : cellGet m a = v := by
  simp [cellGet, h]

/-- A block write leaves the byte read at every offset outside the block alone. -/
theorem cellGet_cellsPut_outside (vs : List Byte) (m : Memory) (a b : Nat) (h : b < a ∨ a + vs.length ≤ b) :
    cellGet (cellsPut m a vs) b = cellGet m b := by
  rw [cellGet, cellFind_cellsPut_outside vs m a b h, cellGet]

/-- After a block write, offset `a + i` reads as byte `i` of the block. -/
theorem cellGet_cellsPut_inside (vs : List Byte) (m : Memory) (a i : Nat) (h : i < vs.length) :
    vs[i]? = some (cellGet (cellsPut m a vs) (a + i)) := by
  have hf := cellFind_cellsPut_inside vs m a i h
  rw [List.getElem?_eq_getElem h] at hf ⊢
  rw [cellGet_of_find hf]

@[simp] theorem cellsGet_length (m : Memory) : ∀ a n, (cellsGet m a n).length = n
  | _, 0 => rfl
  | a, n + 1 => by simp [cellsGet, cellsGet_length m (a + 1) n]

/-- A block read gives, in rising order, the byte at each of its offsets. -/
theorem cellsGet_getElem? (m : Memory) : ∀ a n i, i < n → (cellsGet m a n)[i]? = some (cellGet m (a + i))
  | _, 0, _, h => absurd h (Nat.not_lt_zero _)
  | a, n + 1, 0, _ => rfl
  | a, n + 1, i + 1, h => by
    have := cellsGet_getElem? m (a + 1) n i (by omega)
    rw [show a + 1 + i = a + (i + 1) by omega] at this
    simpa [cellsGet] using this

/-- A block read after a write of the same block gives the block. -/
theorem cellsGet_cellsPut (m : Memory) (a : Nat) (vs : List Byte) :
    cellsGet (cellsPut m a vs) a vs.length = vs := by
  refine List.ext_getElem? fun i => ?_
  by_cases h : i < vs.length
  · rw [cellsGet_getElem? _ _ _ _ h, cellGet_cellsPut_inside vs m a i h]
  · rw [List.getElem?_eq_none (by simpa using h), List.getElem?_eq_none (by omega)]

/-- The canonical form, cell by cell. -/
theorem Memory.wf_cons (a : Nat) (v : Byte) (m : Memory) :
    Memory.wf ((a, v) :: m) = true ↔
      a < Config.cmdBufCap ∧ Memory.wf m = true ∧ ∀ c ∈ m.head?, a < c.1 := by
  cases m with
  | nil => simp [Memory.wf]
  | cons c m =>
    obtain ⟨b, w⟩ := c
    simp only [Memory.wf, Bool.and_eq_true, decide_eq_true_eq, List.head?_cons, Option.mem_some_iff, forall_eq']
    constructor
    · rintro ⟨hab, hm⟩
      have hb : b < Config.cmdBufCap := by
        cases m with
        | nil => simpa [Memory.wf] using hm
        | cons d m =>
          obtain ⟨d, x⟩ := d
          clear hab
          induction m generalizing b w d x with
          | nil => simp [Memory.wf] at hm; omega
          | cons e m ih =>
            simp only [Memory.wf, Bool.and_eq_true, decide_eq_true_eq] at hm
            have := ih d x e.1 e.2 (by simpa [Memory.wf] using hm.2)
            omega
      exact ⟨by omega, hm, hab⟩
    · rintro ⟨_, hm, hab⟩
      exact ⟨hab, hm⟩

theorem cellPut_head (m : Memory) (a b : Nat) (v : Byte) (hb : b < a) (h : ∀ c ∈ m.head?, b < c.1) :
    ∀ c ∈ (cellPut m a v).head?, b < c.1 := by
  cases m with
  | nil => simpa [cellPut] using hb
  | cons c m =>
    obtain ⟨x, w⟩ := c
    simp only [cellPut]
    split
    · simpa using hb
    · split
      · simpa using hb
      · simpa using h

/-- One write inside the buffer keeps the canonical form. -/
theorem cellPut_wf (m : Memory) (a : Nat) (v : Byte) (ha : a < Config.cmdBufCap) (h : Memory.wf m = true) :
    Memory.wf (cellPut m a v) = true := by
  induction m with
  | nil => simpa [cellPut, Memory.wf] using ha
  | cons c m ih =>
    obtain ⟨b, w⟩ := c
    have hc := (Memory.wf_cons b w m).1 h
    simp only [cellPut]
    split
    · next hab => exact (Memory.wf_cons _ _ _).2 ⟨ha, h, by simpa using hab⟩
    · split
      · next hab => subst hab; exact (Memory.wf_cons _ _ _).2 ⟨ha, hc.2⟩
      · exact (Memory.wf_cons _ _ _).2 ⟨hc.1, ih hc.2.1, cellPut_head _ _ _ _ (by omega) hc.2.2⟩

/-- A block write inside the buffer keeps the canonical form. -/
theorem cellsPut_wf (vs : List Byte) :
    ∀ (m : Memory) (a : Nat), a + vs.length ≤ Config.cmdBufCap → Memory.wf m = true →
      Memory.wf (cellsPut m a vs) = true := by
  induction vs with
  | nil => intro m a _ h; exact h
  | cons v vs ih =>
    intro m a ha h
    simp only [List.length_cons] at ha
    exact ih _ _ (by omega) (cellPut_wf _ _ _ (by omega) h)

theorem reset_cb_wf : Memory.wf State.reset.cb = true := rfl

end Sys2Proof.Machine
end

