-- ==== Sys2Proof/Laws/State.lean ====
section
/-! SUPPORT. What each named update of the state leaves in each field: one lemma per field per update, true by unfolding. -/

namespace Sys2Proof.Machine

/-! ### `emit` -/

@[simp] theorem emit_acc (e : Event) (s : State) : (emit e s).acc = s.acc := rfl
@[simp] theorem emit_crc (e : Event) (s : State) : (emit e s).crc = s.crc := rfl
@[simp] theorem emit_crcOk (e : Event) (s : State) : (emit e s).crcOk = s.crcOk := rfl
@[simp] theorem emit_attempt (e : Event) (s : State) : (emit e s).attempt = s.attempt := rfl
@[simp] theorem emit_rx (e : Event) (s : State) : (emit e s).rx = s.rx := rfl
@[simp] theorem emit_tx (e : Event) (s : State) : (emit e s).tx = s.tx := rfl
@[simp] theorem emit_slotBit (e : Event) (s : State) : (emit e s).slotBit = s.slotBit := rfl
@[simp] theorem emit_lineMode (e : Event) (s : State) : (emit e s).lineMode = s.lineMode := rfl
@[simp] theorem emit_atomic (e : Event) (s : State) : (emit e s).atomic = s.atomic := rfl
@[simp] theorem emit_crcResend (e : Event) (s : State) : (emit e s).crcResend = s.crcResend := rfl
@[simp] theorem emit_sessionOpen (e : Event) (s : State) : (emit e s).sessionOpen = s.sessionOpen := rfl
@[simp] theorem emit_lineOwned (e : Event) (s : State) : (emit e s).lineOwned = s.lineOwned := rfl
@[simp] theorem emit_queue (e : Event) (s : State) : (emit e s).queue = s.queue := rfl
@[simp] theorem emit_cb (e : Event) (s : State) : (emit e s).cb = s.cb := rfl
@[simp] theorem emit_cbLen (e : Event) (s : State) : (emit e s).cbLen = s.cbLen := rfl
@[simp] theorem emit_seq (e : Event) (s : State) : (emit e s).seq = s.seq := rfl
@[simp] theorem emit_trace (e : Event) (s : State) : (emit e s).trace = s.trace ++ [e] := rfl
@[simp] theorem emit_ret (e : Event) (s : State) : (emit e s).ret = s.ret := rfl
@[simp] theorem emit_host (e : Event) (s : State) : (emit e s).host = s.host := rfl
@[simp] theorem emit_slave (e : Event) (s : State) : (emit e s).slave = s.slave := rfl
@[simp] theorem emit_draws (e : Event) (s : State) : (emit e s).draws = s.draws := rfl

/-! ### `delay` -/

@[simp] theorem delay_acc (us : Nat) (s : State) : (delay us s).acc = s.acc := rfl
@[simp] theorem delay_crc (us : Nat) (s : State) : (delay us s).crc = s.crc := rfl
@[simp] theorem delay_crcOk (us : Nat) (s : State) : (delay us s).crcOk = s.crcOk := rfl
@[simp] theorem delay_attempt (us : Nat) (s : State) : (delay us s).attempt = s.attempt := rfl
@[simp] theorem delay_rx (us : Nat) (s : State) : (delay us s).rx = s.rx := rfl
@[simp] theorem delay_tx (us : Nat) (s : State) : (delay us s).tx = s.tx := rfl
@[simp] theorem delay_slotBit (us : Nat) (s : State) : (delay us s).slotBit = s.slotBit := rfl
@[simp] theorem delay_lineMode (us : Nat) (s : State) : (delay us s).lineMode = s.lineMode := rfl
@[simp] theorem delay_atomic (us : Nat) (s : State) : (delay us s).atomic = s.atomic := rfl
@[simp] theorem delay_crcResend (us : Nat) (s : State) : (delay us s).crcResend = s.crcResend := rfl
@[simp] theorem delay_sessionOpen (us : Nat) (s : State) : (delay us s).sessionOpen = s.sessionOpen := rfl
@[simp] theorem delay_lineOwned (us : Nat) (s : State) : (delay us s).lineOwned = s.lineOwned := rfl
@[simp] theorem delay_queue (us : Nat) (s : State) : (delay us s).queue = s.queue := rfl
@[simp] theorem delay_cb (us : Nat) (s : State) : (delay us s).cb = s.cb := rfl
@[simp] theorem delay_cbLen (us : Nat) (s : State) : (delay us s).cbLen = s.cbLen := rfl
@[simp] theorem delay_seq (us : Nat) (s : State) : (delay us s).seq = s.seq := rfl
@[simp] theorem delay_trace (us : Nat) (s : State) : (delay us s).trace = s.trace ++ [.delay us] := rfl
@[simp] theorem delay_ret (us : Nat) (s : State) : (delay us s).ret = s.ret := rfl
@[simp] theorem delay_host (us : Nat) (s : State) : (delay us s).host = s.host := rfl
@[simp] theorem delay_slave (us : Nat) (s : State) : (delay us s).slave = s.slave := rfl
@[simp] theorem delay_draws (us : Nat) (s : State) : (delay us s).draws = s.draws := rfl

/-! ### `returnWith` -/

@[simp] theorem returnWith_acc (v : CallResult) (s : State) : (returnWith v s).acc = s.acc := rfl
@[simp] theorem returnWith_crc (v : CallResult) (s : State) : (returnWith v s).crc = s.crc := rfl
@[simp] theorem returnWith_crcOk (v : CallResult) (s : State) : (returnWith v s).crcOk = s.crcOk := rfl
@[simp] theorem returnWith_attempt (v : CallResult) (s : State) : (returnWith v s).attempt = s.attempt := rfl
@[simp] theorem returnWith_rx (v : CallResult) (s : State) : (returnWith v s).rx = s.rx := rfl
@[simp] theorem returnWith_tx (v : CallResult) (s : State) : (returnWith v s).tx = s.tx := rfl
@[simp] theorem returnWith_slotBit (v : CallResult) (s : State) : (returnWith v s).slotBit = s.slotBit := rfl
@[simp] theorem returnWith_lineMode (v : CallResult) (s : State) : (returnWith v s).lineMode = s.lineMode := rfl
@[simp] theorem returnWith_atomic (v : CallResult) (s : State) : (returnWith v s).atomic = s.atomic := rfl
@[simp] theorem returnWith_crcResend (v : CallResult) (s : State) : (returnWith v s).crcResend = s.crcResend := rfl
@[simp] theorem returnWith_sessionOpen (v : CallResult) (s : State) : (returnWith v s).sessionOpen = s.sessionOpen := rfl
@[simp] theorem returnWith_lineOwned (v : CallResult) (s : State) : (returnWith v s).lineOwned = s.lineOwned := rfl
@[simp] theorem returnWith_queue (v : CallResult) (s : State) : (returnWith v s).queue = s.queue := rfl
@[simp] theorem returnWith_cb (v : CallResult) (s : State) : (returnWith v s).cb = s.cb := rfl
@[simp] theorem returnWith_cbLen (v : CallResult) (s : State) : (returnWith v s).cbLen = s.cbLen := rfl
@[simp] theorem returnWith_seq (v : CallResult) (s : State) : (returnWith v s).seq = .idle := rfl
@[simp] theorem returnWith_trace (v : CallResult) (s : State) : (returnWith v s).trace = s.trace := rfl
@[simp] theorem returnWith_ret (v : CallResult) (s : State) : (returnWith v s).ret = v := rfl
@[simp] theorem returnWith_host (v : CallResult) (s : State) : (returnWith v s).host = s.host := rfl
@[simp] theorem returnWith_slave (v : CallResult) (s : State) : (returnWith v s).slave = s.slave := rfl
@[simp] theorem returnWith_draws (v : CallResult) (s : State) : (returnWith v s).draws = s.draws := rfl

/-! ### `raise` -/

@[simp] theorem raise_acc (e : ErrorKind) (s : State) : (raise e s).acc = s.acc := rfl
@[simp] theorem raise_crc (e : ErrorKind) (s : State) : (raise e s).crc = s.crc := rfl
@[simp] theorem raise_crcOk (e : ErrorKind) (s : State) : (raise e s).crcOk = s.crcOk := rfl
@[simp] theorem raise_attempt (e : ErrorKind) (s : State) : (raise e s).attempt = s.attempt := rfl
@[simp] theorem raise_rx (e : ErrorKind) (s : State) : (raise e s).rx = s.rx := rfl
@[simp] theorem raise_tx (e : ErrorKind) (s : State) : (raise e s).tx = s.tx := rfl
@[simp] theorem raise_slotBit (e : ErrorKind) (s : State) : (raise e s).slotBit = s.slotBit := rfl
@[simp] theorem raise_lineMode (e : ErrorKind) (s : State) : (raise e s).lineMode = s.lineMode := rfl
@[simp] theorem raise_atomic (e : ErrorKind) (s : State) : (raise e s).atomic = s.atomic := rfl
@[simp] theorem raise_crcResend (e : ErrorKind) (s : State) : (raise e s).crcResend = s.crcResend := rfl
@[simp] theorem raise_sessionOpen (e : ErrorKind) (s : State) : (raise e s).sessionOpen = s.sessionOpen := rfl
@[simp] theorem raise_lineOwned (e : ErrorKind) (s : State) : (raise e s).lineOwned = s.lineOwned := rfl
@[simp] theorem raise_queue (e : ErrorKind) (s : State) : (raise e s).queue = s.queue := rfl
@[simp] theorem raise_cb (e : ErrorKind) (s : State) : (raise e s).cb = s.cb := rfl
@[simp] theorem raise_cbLen (e : ErrorKind) (s : State) : (raise e s).cbLen = s.cbLen := rfl
@[simp] theorem raise_seq (e : ErrorKind) (s : State) : (raise e s).seq = .idle := rfl
@[simp] theorem raise_trace (e : ErrorKind) (s : State) : (raise e s).trace = s.trace := rfl
@[simp] theorem raise_ret (e : ErrorKind) (s : State) : (raise e s).ret = .error e := rfl
@[simp] theorem raise_host (e : ErrorKind) (s : State) : (raise e s).host = s.host := rfl
@[simp] theorem raise_slave (e : ErrorKind) (s : State) : (raise e s).slave = s.slave := rfl
@[simp] theorem raise_draws (e : ErrorKind) (s : State) : (raise e s).draws = s.draws := rfl

/-! ### `returnCount` -/

@[simp] theorem returnCount_acc (s : State) : (returnCount s).acc = s.acc := rfl
@[simp] theorem returnCount_crc (s : State) : (returnCount s).crc = s.crc := rfl
@[simp] theorem returnCount_crcOk (s : State) : (returnCount s).crcOk = s.crcOk := rfl
@[simp] theorem returnCount_attempt (s : State) : (returnCount s).attempt = s.attempt := rfl
@[simp] theorem returnCount_rx (s : State) : (returnCount s).rx = s.rx := rfl
@[simp] theorem returnCount_tx (s : State) : (returnCount s).tx = s.tx := rfl
@[simp] theorem returnCount_slotBit (s : State) : (returnCount s).slotBit = s.slotBit := rfl
@[simp] theorem returnCount_lineMode (s : State) : (returnCount s).lineMode = s.lineMode := rfl
@[simp] theorem returnCount_atomic (s : State) : (returnCount s).atomic = s.atomic := rfl
@[simp] theorem returnCount_crcResend (s : State) : (returnCount s).crcResend = s.crcResend := rfl
@[simp] theorem returnCount_sessionOpen (s : State) : (returnCount s).sessionOpen = s.sessionOpen := rfl
@[simp] theorem returnCount_lineOwned (s : State) : (returnCount s).lineOwned = s.lineOwned := rfl
@[simp] theorem returnCount_queue (s : State) : (returnCount s).queue = s.queue := rfl
@[simp] theorem returnCount_cb (s : State) : (returnCount s).cb = s.cb := rfl
@[simp] theorem returnCount_cbLen (s : State) : (returnCount s).cbLen = s.cbLen := rfl
@[simp] theorem returnCount_seq (s : State) : (returnCount s).seq = .idle := rfl
@[simp] theorem returnCount_trace (s : State) : (returnCount s).trace = s.trace := rfl
@[simp] theorem returnCount_ret (s : State) : (returnCount s).ret = .count s.cbLen := rfl
@[simp] theorem returnCount_host (s : State) : (returnCount s).host = s.host := rfl
@[simp] theorem returnCount_slave (s : State) : (returnCount s).slave = s.slave := rfl
@[simp] theorem returnCount_draws (s : State) : (returnCount s).draws = s.draws := rfl

/-! ### `shiftIn`: only `acc` changes -/

@[simp] theorem shiftIn_acc (i : Nat) (s : State) : (shiftIn i s).acc = s.acc ||| bitAt s.slotBit i := rfl
@[simp] theorem shiftIn_crc (i : Nat) (s : State) : (shiftIn i s).crc = s.crc := rfl
@[simp] theorem shiftIn_crcOk (i : Nat) (s : State) : (shiftIn i s).crcOk = s.crcOk := rfl
@[simp] theorem shiftIn_attempt (i : Nat) (s : State) : (shiftIn i s).attempt = s.attempt := rfl
@[simp] theorem shiftIn_rx (i : Nat) (s : State) : (shiftIn i s).rx = s.rx := rfl
@[simp] theorem shiftIn_tx (i : Nat) (s : State) : (shiftIn i s).tx = s.tx := rfl
@[simp] theorem shiftIn_slotBit (i : Nat) (s : State) : (shiftIn i s).slotBit = s.slotBit := rfl
@[simp] theorem shiftIn_lineMode (i : Nat) (s : State) : (shiftIn i s).lineMode = s.lineMode := rfl
@[simp] theorem shiftIn_atomic (i : Nat) (s : State) : (shiftIn i s).atomic = s.atomic := rfl
@[simp] theorem shiftIn_crcResend (i : Nat) (s : State) : (shiftIn i s).crcResend = s.crcResend := rfl
@[simp] theorem shiftIn_sessionOpen (i : Nat) (s : State) : (shiftIn i s).sessionOpen = s.sessionOpen := rfl
@[simp] theorem shiftIn_lineOwned (i : Nat) (s : State) : (shiftIn i s).lineOwned = s.lineOwned := rfl
@[simp] theorem shiftIn_queue (i : Nat) (s : State) : (shiftIn i s).queue = s.queue := rfl
@[simp] theorem shiftIn_cb (i : Nat) (s : State) : (shiftIn i s).cb = s.cb := rfl
@[simp] theorem shiftIn_cbLen (i : Nat) (s : State) : (shiftIn i s).cbLen = s.cbLen := rfl
@[simp] theorem shiftIn_seq (i : Nat) (s : State) : (shiftIn i s).seq = s.seq := rfl
@[simp] theorem shiftIn_trace (i : Nat) (s : State) : (shiftIn i s).trace = s.trace := rfl
@[simp] theorem shiftIn_ret (i : Nat) (s : State) : (shiftIn i s).ret = s.ret := rfl
@[simp] theorem shiftIn_host (i : Nat) (s : State) : (shiftIn i s).host = s.host := rfl
@[simp] theorem shiftIn_slave (i : Nat) (s : State) : (shiftIn i s).slave = s.slave := rfl
@[simp] theorem shiftIn_draws (i : Nat) (s : State) : (shiftIn i s).draws = s.draws := rfl

/-! ### `afterDraw`: only the slave's answers and the count of draws change -/

@[simp] theorem afterDraw_acc (s : State) : (afterDraw s).acc = s.acc := by unfold afterDraw; split <;> rfl
@[simp] theorem afterDraw_crc (s : State) : (afterDraw s).crc = s.crc := by unfold afterDraw; split <;> rfl
@[simp] theorem afterDraw_crcOk (s : State) : (afterDraw s).crcOk = s.crcOk := by unfold afterDraw; split <;> rfl
@[simp] theorem afterDraw_attempt (s : State) : (afterDraw s).attempt = s.attempt := by unfold afterDraw; split <;> rfl
@[simp] theorem afterDraw_rx (s : State) : (afterDraw s).rx = s.rx := by unfold afterDraw; split <;> rfl
@[simp] theorem afterDraw_tx (s : State) : (afterDraw s).tx = s.tx := by unfold afterDraw; split <;> rfl
@[simp] theorem afterDraw_slotBit (s : State) : (afterDraw s).slotBit = s.slotBit := by unfold afterDraw; split <;> rfl
@[simp] theorem afterDraw_lineMode (s : State) : (afterDraw s).lineMode = s.lineMode := by unfold afterDraw; split <;> rfl
@[simp] theorem afterDraw_atomic (s : State) : (afterDraw s).atomic = s.atomic := by unfold afterDraw; split <;> rfl
@[simp] theorem afterDraw_crcResend (s : State) : (afterDraw s).crcResend = s.crcResend := by unfold afterDraw; split <;> rfl
@[simp] theorem afterDraw_sessionOpen (s : State) : (afterDraw s).sessionOpen = s.sessionOpen := by unfold afterDraw; split <;> rfl
@[simp] theorem afterDraw_lineOwned (s : State) : (afterDraw s).lineOwned = s.lineOwned := by unfold afterDraw; split <;> rfl
@[simp] theorem afterDraw_queue (s : State) : (afterDraw s).queue = s.queue := by unfold afterDraw; split <;> rfl
@[simp] theorem afterDraw_cb (s : State) : (afterDraw s).cb = s.cb := by unfold afterDraw; split <;> rfl
@[simp] theorem afterDraw_cbLen (s : State) : (afterDraw s).cbLen = s.cbLen := by unfold afterDraw; split <;> rfl
@[simp] theorem afterDraw_seq (s : State) : (afterDraw s).seq = s.seq := by unfold afterDraw; split <;> rfl
@[simp] theorem afterDraw_trace (s : State) : (afterDraw s).trace = s.trace := by unfold afterDraw; split <;> rfl
@[simp] theorem afterDraw_ret (s : State) : (afterDraw s).ret = s.ret := by unfold afterDraw; split <;> rfl
@[simp] theorem afterDraw_host (s : State) : (afterDraw s).host = s.host := by unfold afterDraw; split <;> rfl

@[simp] theorem afterDraw_draws (s : State) : (afterDraw s).draws = s.draws + 1 := by unfold afterDraw; split <;> rfl

/-- With the line released, a draw uses up one answer of the slave (R62). -/
theorem afterDraw_slave_input (s : State) (h : s.lineMode = .input) : (afterDraw s).slave = s.slave.tail := by
  simp [afterDraw, h]

/-- While the block drives the line, a draw uses up no answer of the slave (R62). -/
theorem afterDraw_slave_driven (s : State) (h : s.lineMode ≠ .input) : (afterDraw s).slave = s.slave := by
  unfold afterDraw; split <;> simp_all

end Sys2Proof.Machine
end

