-- ==== Sys2Proof/Laws/Ops.lean ====
section
/-! SUPPORT. For each shared operation, what it answers and all it can do: cited by the proofs instead of unfolding it. -/

namespace Sys2Proof.Machine

/-! ### Sequencing -/

@[simp] theorem andThen_next (s : State) (f : State → StepResult) : andThen (.next s) f = f s := rfl
@[simp] theorem andThen_fault (e : Fault) (f : State → StepResult) : andThen (.fault e) f = .fault e := rfl
@[simp] theorem andThen_refused (e : Refusal) (f : State → StepResult) : andThen (.refused e) f = .refused e := rfl

theorem andThen_assoc (o : StepResult) (f g : State → StepResult) :
    andThen (andThen o f) g = andThen o fun s => andThen (f s) g := by
  cases o <;> rfl

/-- A sequence answers a next state only through a next state of each part. -/
theorem andThen_eq_next {o : StepResult} {f : State → StepResult} {t : State} :
    andThen o f = .next t ↔ ∃ s, o = .next s ∧ f s = .next t := by
  cases o <;> simp

@[simp] theorem runPrims_nil (s : State) : runPrims [] s = .next s := rfl

theorem runPrims_cons (p : Prim) (ps : List Prim) (s : State) :
    runPrims (p :: ps) s = andThen (runPrim p s) (runPrims ps) := rfl

theorem runPrims_append (ps qs : List Prim) :
    ∀ s, runPrims (ps ++ qs) s = andThen (runPrims ps s) (runPrims qs) := by
  induction ps with
  | nil => intro s; rfl
  | cons p ps ih =>
    intro s
    rw [List.cons_append, runPrims_cons, runPrims_cons, andThen_assoc]
    congr 1
    exact funext ih

/-- What every primitive step of a sequence keeps, the sequence keeps. -/
theorem runPrims_keeps {P : State → Prop} (ps : List Prim)
    (h : ∀ p ∈ ps, ∀ s t, P s → runPrim p s = .next t → P t) :
    ∀ s t, P s → runPrims ps s = .next t → P t := by
  induction ps with
  | nil => intro s t hs ht; cases ht; exact hs
  | cons p ps ih =>
    intro s t hs ht
    obtain ⟨u, hu, hut⟩ := andThen_eq_next.1 ht
    exact ih (fun q hq => h q (by simp [hq])) u t (h p (by simp) s u hs hu) hut

/-- Where every primitive step of a sequence answers a next state, the sequence does. -/
theorem runPrims_completes {P : State → Prop} (ps : List Prim)
    (h : ∀ p ∈ ps, ∀ s, P s → ∃ t, runPrim p s = .next t ∧ P t) :
    ∀ s, P s → ∃ t, runPrims ps s = .next t ∧ P t := by
  induction ps with
  | nil => intro s hs; exact ⟨s, rfl, hs⟩
  | cons p ps ih =>
    intro s hs
    obtain ⟨u, hu, hPu⟩ := h p (by simp) s hs
    obtain ⟨t, ht, hPt⟩ := ih (fun q hq => h q (by simp [hq])) u hPu
    exact ⟨t, by rw [runPrims_cons, hu]; exact ht, hPt⟩

/-! ### The line and the timing primitives -/

theorem line_owned (o : LineOp) (s : State) (h : s.lineOwned = true) :
    line o s = .next { s with lineMode := o.mode, trace := s.trace ++ [o.event] } := by
  simp [line, h, emit]

theorem line_unowned (o : LineOp) (s : State) (h : s.lineOwned = false) : line o s = .fault .noOperatingState := by
  simp [line, h]

theorem line_next {o : LineOp} {s t : State} (h : line o s = .next t) :
    s.lineOwned = true ∧ t = { s with lineMode := o.mode, trace := s.trace ++ [o.event] } := by
  unfold line at h
  split at h
  · cases h; exact ⟨by assumption, rfl⟩
  · cases h

theorem sleep_next {ms : Nat} {s t : State} (h : sleep ms s = .next t) :
    s.atomic = false ∧ t = { s with trace := s.trace ++ [.sleep ms] } := by
  unfold sleep at h
  split at h
  · cases h
  · cases h; exact ⟨by simp_all, rfl⟩

theorem atomicBegin_next {s t : State} (h : atomicBegin s = .next t) :
    s.atomic = false ∧ t = { s with atomic := true, trace := s.trace ++ [.atomicBegin] } := by
  unfold atomicBegin at h
  split at h
  · cases h
  · cases h; exact ⟨by simp_all, rfl⟩

theorem atomicEnd_next {s t : State} (h : atomicEnd s = .next t) :
    s.atomic = true ∧ t = { s with atomic := false, trace := s.trace ++ [.atomicEnd] } := by
  unfold atomicEnd at h
  split at h
  · cases h; exact ⟨by assumption, rfl⟩
  · cases h

theorem checkCrc_next {s t : State} (h : checkCrc s = .next t) :
    s.rx ≠ [] ∧ t = { s with crc := crc8 s.rx.dropLast, crcOk := crcMatches s.rx } := by
  unfold checkCrc at h
  split at h
  · next b hb =>
    cases h
    refine ⟨fun h0 => by simp [h0] at hb, ?_⟩
    simp [crcMatches, hb]
  · cases h

theorem checkCrc_nonempty (s : State) (h : s.rx ≠ []) :
    checkCrc s = .next { s with crc := crc8 s.rx.dropLast, crcOk := crcMatches s.rx } := by
  unfold checkCrc crcMatches
  split
  · next b hb => simp [hb]
  · next hb => exact absurd (List.getLast?_eq_none_iff.1 hb) h

/-- A sample of the released line takes the slave's next answer (R61, R62). -/
theorem sample_input (s : State) (ho : s.lineOwned = true) (hm : s.lineMode = .input) :
    sample s = .next { s with
      slotBit := slaveAnswer s 0
      slave := s.slave.tail
      draws := s.draws + 1
      trace := s.trace ++ [.sample (slaveAnswer s 0)] } := by
  simp [sample, ho, hm, lineLevel, afterDraw, emit]

/-- All a sample can do (R61, R62). -/
theorem sample_next {s t : State} (h : sample s = .next t) :
    s.lineOwned = true ∧
      t = { s with slotBit := lineLevel s, slave := (afterDraw s).slave, draws := s.draws + 1,
                   trace := s.trace ++ [.sample (lineLevel s)] } := by
  unfold sample at h
  split at h
  · cases h
    refine ⟨by assumption, ?_⟩
    unfold afterDraw emit
    split <;> rfl
  · cases h

/-! ### The slave's coming answers -/

/-- After a draw from the released line, the `k`-th coming answer is what was the `k+1`-st (entry 4). -/
theorem slaveAnswer_tail (s t : State) (k : Nat) (h1 : t.slave = s.slave.tail) (h2 : t.draws = s.draws + 1) :
    slaveAnswer t k = slaveAnswer s (k + 1) := by
  unfold slaveAnswer
  rw [h1, h2, List.getElem?_tail, show s.draws + 1 + k = s.draws + (k + 1) by omega]

/-- The answers depend only on the slave's coming answers and the count of draws. -/
theorem slaveAnswer_drop (s t : State) (n k : Nat) (h1 : t.slave = s.slave.drop n) (h2 : t.draws = s.draws + n) :
    slaveAnswer t k = slaveAnswer s (n + k) := by
  unfold slaveAnswer
  rw [h1, h2, List.getElem?_drop, show s.draws + n + k = s.draws + (n + k) by omega]

/-! ### The command buffer -/

theorem memWrite_next {a : Nat} {v : List Byte} {s t : State} (h : memWrite a v s = .next t) :
    a + v.length ≤ Config.cmdBufCap ∧ t = { s with cb := cellsPut s.cb a v } := by
  unfold memWrite at h
  split at h
  · cases h; exact ⟨by assumption, rfl⟩
  · cases h

/-- The copy of a host write always succeeds: it accepts `min(L, 512)` bytes (R107). -/
theorem load_eq (bytes : List Byte) (s : State) :
    load bytes s = .next { s with
      cb := cellsPut s.cb 0 (bytes.take Config.cmdBufCap)
      cbLen := (bytes.take Config.cmdBufCap).length } := by
  have h : 0 + (bytes.take Config.cmdBufCap).length ≤ Config.cmdBufCap := by
    simp only [Nat.zero_add, List.length_take]; exact Nat.min_le_left _ _
  simp only [load, memWrite, h, if_true, andThen_next]

/-- What was just copied is what the dispatcher reads (R48, R107). -/
theorem memRead_loaded (bytes : List Byte) (s t : State) (h : load bytes s = .next t) :
    memRead t 0 t.cbLen = .next (bytes.take Config.cmdBufCap) := by
  rw [load_eq] at h
  cases h
  simp [memRead, cellsGet_cellsPut, -List.length_take]

/-! ### The queue and the end of a call -/

theorem pushResult_full (r : Record) (s : State) (h : s.queue.length = Config.queueCap) :
    pushResult r s = raise .queueFull s := by
  simp [pushResult, pushQueue, h]

theorem pushResult_room (r : Record) (s : State) (h : s.queue.length ≠ Config.queueCap) :
    pushResult r s = { s with queue := s.queue ++ [r], ret := .count s.cbLen, seq := .idle } := by
  simp [pushResult, pushQueue, h, returnCount, returnWith]

/-- All the end of a call can change: the queue, the result, the sequencer and the session flag. -/
theorem runFinish_frame (f : Finish) (s : State) :
    ∃ q r b, runFinish f s = { s with queue := q, ret := r, seq := .idle, sessionOpen := b } := by
  cases f with
  | count => exact ⟨s.queue, .count s.cbLen, s.sessionOpen, rfl⟩
  | push g =>
    by_cases h : s.queue.length = Config.queueCap
    · exact ⟨s.queue, .error .queueFull, s.sessionOpen, pushResult_full _ _ h⟩
    · exact ⟨_, _, s.sessionOpen, pushResult_room _ _ h⟩
  | error e => exact ⟨s.queue, .error e, s.sessionOpen, rfl⟩
  | openSession =>
    by_cases h : s.sessionOpen = true
    · exact ⟨s.queue, .error .sessionBusy, s.sessionOpen, by simp [runFinish, hostOpen, h, raise, returnWith]⟩
    · exact ⟨s.queue, .ok, true, by simp [runFinish, hostOpen, h, returnWith]⟩
  | releaseSession => exact ⟨s.queue, .ok, false, rfl⟩
  | read c b =>
    cases hq : s.queue with
    | nil => exact ⟨s.queue, .empty, s.sessionOpen, by simp [runFinish, hostRead, popQueue, hq, returnWith]⟩
    | cons r q =>
      cases b with
      | true => exact ⟨q, .error .copyFault, s.sessionOpen, by simp [runFinish, hostRead, popQueue, hq, raise, returnWith]⟩
      | false => exact ⟨q, _, s.sessionOpen, by simp [runFinish, hostRead, popQueue, hq, returnWith]; rfl⟩

/-! ### Records -/

/-- Every record this machine makes is well formed (R24). -/
theorem recordOf_wf (bs : List Byte) : Record.wf (recordOf bs) = true := by
  have hcap : Config.recordCap = 8 := rfl
  simp only [Record.wf, recordOf, Bool.and_eq_true, decide_eq_true_eq, List.length_append, List.length_take,
    List.length_replicate, List.all_eq_true, beq_iff_eq]
  refine ⟨⟨by omega, decide_eq_true (Nat.min_le_right _ _)⟩, ?_⟩
  intro x hx
  rw [List.drop_append, List.length_take] at hx
  rcases List.mem_append.1 hx with h | h
  · rw [List.drop_eq_nil_of_le (by rw [List.length_take]; exact le_of_eq (Nat.min_comm _ _))] at h
    simp at h
  · exact (List.mem_replicate.1 (List.mem_of_mem_drop h)).2

end Sys2Proof.Machine
end

