-- ==== Sys2Proof/Laws/HostCalls.lean ====
section
/-! SUPPORT. What a host write runs: the command its accepted bytes decode to, at the state after the copy (R79, R107). -/

namespace Sys2Proof.Machine

/-- A write whose copy succeeds is the meaning of the command its accepted bytes decode to (R107, R79). -/
theorem hostWrite_copied (bytes : List Byte) (s : State) :
    hostWrite bytes false s =
      exec (decode (bytes.take Config.cmdBufCap))
        { s with
          cb := cellsPut s.cb 0 (bytes.take Config.cmdBufCap)
          cbLen := (bytes.take Config.cmdBufCap).length } := by
  have h := memRead_loaded bytes s _ (load_eq bytes s)
  rw [hostWrite, load_eq]
  simp only [Bool.false_eq_true, if_false, andThen_next, dispatch, h]

/-- A write whose copy fails changes nothing but the call's result (R107, R111). -/
theorem hostWrite_failed (bytes : List Byte) (s : State) :
    hostWrite bytes true s = .next { s with ret := .error .copyFault, seq := .idle } := rfl

end Sys2Proof.Machine
end

