-- ==== Sys2Proof/Laws/PerInstr.lean ====
section
/-! SUPPORT. A statement about every command as syntax: its shortest byte string fits in the longest command's five bytes, and
so in the command buffer (30_encoding.md R46, R52). -/

namespace Sys2Proof.Laws.EncodeFits

/-- A well-formed command's shortest byte string has at most five bytes. -/
def Statement : Instr → Prop := fun cmd => cmd.wf = true → (encode cmd).length ≤ longestCommand

theorem r : Statement .r := fun _ => by decide
theorem h : Statement .h := fun _ => by decide
theorem l : Statement .l := fun _ => by decide
theorem i : Statement .i := fun _ => by decide
theorem ecrc : Statement .ecrc := fun _ => by decide
theorem dcrc : Statement .dcrc := fun _ => by decide
theorem flush : Statement .flush := fun _ => by decide
theorem size : Statement .size := fun _ => by decide
theorem ra : Statement .ra := fun _ => by decide
theorem ws (p : List Byte) : Statement (.ws p) := fun hp => by
  have h3 : p.length ≤ 3 := of_decide_eq_true hp
  show (tokWs ++ p).length ≤ 5
  rw [List.length_append, show tokWs.length = 2 from rfl]
  omega
theorem rs : Statement .rs := fun _ => by decide
theorem ct : Statement .ct := fun _ => by decide
theorem zero : Statement .zero := fun _ => by decide
theorem one : Statement .one := fun _ => by decide
theorem noMatch : Statement .noMatch := fun _ => by decide

end Sys2Proof.Laws.EncodeFits
end

