-- ==== Sys2Proof/Laws/Steps.lean ====
section
/-! SUPPORT. Said once: what a primitive step keeps, what a checked read can do, and what a step from the idle position can be.
Later proofs cite these and unfold neither `runPrim`, `checkedRead` nor `nextMove`. -/

namespace Sys2Proof.Machine

/-- What no primitive step changes; and the trace only gains events (R28). -/
theorem runPrim_frame {p : Prim} {s t : State} (h : runPrim p s = .next t) :
    t.lineOwned = s.lineOwned ∧ t.sessionOpen = s.sessionOpen ∧ t.seq = s.seq ∧ t.ret = s.ret ∧ t.host = s.host ∧
      s.trace <+: t.trace := by
  cases p with
  | line o => obtain ⟨_, rfl⟩ := line_next h; simp
  | delay us => cases h; simp
  | sleep ms => obtain ⟨_, rfl⟩ := sleep_next h; simp
  | atomicBegin => obtain ⟨_, rfl⟩ := atomicBegin_next h; simp
  | atomicEnd => obtain ⟨_, rfl⟩ := atomicEnd_next h; simp
  | sample => obtain ⟨_, rfl⟩ := sample_next h; simp
  | checkCrc => obtain ⟨_, rfl⟩ := checkCrc_next h; simp
  | load b => rw [runPrim, load_eq] at h; cases h; simp
  | refuse e => cases h
  | _ => cases h; simp

/-- Only `setResend` changes the mode bit, only `flush` the queue, and only `firstAttempt` and `nextAttempt` the attempt counter
(R21, R25, R82). -/
theorem runPrim_control {p : Prim} {s t : State} (h : runPrim p s = .next t) :
    ((∀ b, p ≠ .setResend b) → t.crcResend = s.crcResend) ∧ (p ≠ .flush → t.queue = s.queue) ∧
      (p ≠ .firstAttempt → p ≠ .nextAttempt → t.attempt = s.attempt) := by
  cases p with
  | line o => obtain ⟨_, rfl⟩ := line_next h; simp
  | delay us => cases h; simp
  | sleep ms => obtain ⟨_, rfl⟩ := sleep_next h; simp
  | atomicBegin => obtain ⟨_, rfl⟩ := atomicBegin_next h; simp
  | atomicEnd => obtain ⟨_, rfl⟩ := atomicEnd_next h; simp
  | sample => obtain ⟨_, rfl⟩ := sample_next h; simp
  | checkCrc => obtain ⟨_, rfl⟩ := checkCrc_next h; simp
  | load b => rw [runPrim, load_eq] at h; cases h; simp
  | refuse e => cases h
  | _ => cases h; simp

/-- A command with no loop answers a next state only through its sequence and its last step. -/
theorem runCommand_next {ps : List Prim} {f : Finish} {s t : State} (h : runCommand ps f s = .next t) :
    ∃ u, runPrims ps s = .next u ∧ t = runFinish f u := by
  obtain ⟨u, hu, h⟩ := andThen_eq_next.1 h
  cases h
  exact ⟨u, hu, rfl⟩

/-- What the attempt body and the steps between two attempts keep, the retry loop keeps (R82). -/
theorem attemptLoop_keeps {P : State → Prop} {body : List Prim}
    (hb : ∀ s t, P s → runPrims body s = .next t → P t) (hr : ∀ s t, P s → runPrims retryOps s = .next t → P t) (left : Nat) :
    ∀ s t, P s → attemptLoop body left s = .next t → P t := by
  induction left with
  | zero => exact hb
  | succ left ih =>
    intro s t hs h
    obtain ⟨u, hu, h⟩ := andThen_eq_next.1 h
    split at h
    · cases h; exact hb s _ hs hu
    · obtain ⟨v, hv, h⟩ := andThen_eq_next.1 h
      exact ih v t (hr u v (hb s u hs hu) hv) h

/-- A checked read is its once-only part, then the loop with one attempt fewer left than the mode allows (R82). -/
theorem checkedRead_next {scope : RetryScope} {lead : List Prim} {count : Nat} {s t : State}
    (h : checkedRead scope lead count s = .next t) :
    ∃ u, runPrims (leadOnce scope lead ++ [.firstAttempt]) s = .next u ∧
      attemptLoop (attemptOps scope lead count) (maxAttempts s - 1) u = .next t :=
  andThen_eq_next.1 h

/-- All a step from the idle position can be: nothing, a teardown, or a whole admitted host call (R27, R103, R123). -/
theorem step_idle_next {s t : State} (hs : s.seq = .idle) (h : step s = .next t) :
    s.lineOwned = true ∧
      ((s.host = [] ∧ t = s) ∨
        (∃ rest, s.host = .teardown :: rest ∧ t = teardown { s with host := rest }) ∨
        ∃ c rest, s.host = .call c :: rest ∧ s.atomic = false ∧ (needsSession c = true → s.sessionOpen = true) ∧
          runCall c { s with host := rest, seq := .busy c 0 } = .next t) := by
  rw [step, nextMove] at h
  split at h
  · next ho =>
    refine ⟨ho, ?_⟩
    rw [hs] at h
    dsimp only at h
    split at h
    · next hh => cases h; exact .inl ⟨hh, rfl⟩
    · next e rest hh =>
      cases e with
      | call c =>
        refine .inr (.inr ⟨c, rest, hh, ?_⟩)
        simp only [hostMove, startCall] at h
        split at h
        · cases h
        · next ha =>
          split at h
          · cases h
          · next hse => exact ⟨by simpa using ha, fun hc => by simpa [hc] using hse, h⟩
      | overlap a b => simp [hostMove] at h
      | teardown =>
        refine .inr (.inl ⟨rest, hh, ?_⟩)
        rw [hostMove] at h
        injection h with h
        rw [← h, ← hs]
  · cases h

/-- All a host call can be, run whole (R104, R105, R107, R108). -/
theorem runCall_next {c : HostCall} {s t : State} (h : runCall c s = .next t) :
    (c = .openSession ∧ t = hostOpen s) ∨ (c = .releaseSession ∧ t = hostRelease s) ∨
      (∃ k f, c = .read k f ∧ t = hostRead k f s) ∨
      (∃ b, c = .write b true ∧ t = { s with ret := .error .copyFault, seq := .idle }) ∨
      ∃ b, c = .write b false ∧
        exec (decode (b.take Config.cmdBufCap))
          { s with
            cb := cellsPut s.cb 0 (b.take Config.cmdBufCap)
            cbLen := (b.take Config.cmdBufCap).length } = .next t := by
  cases c with
  | openSession => rw [runCall] at h; injection h with h; exact .inl ⟨rfl, h.symm⟩
  | releaseSession => rw [runCall] at h; injection h with h; exact .inr (.inl ⟨rfl, h.symm⟩)
  | read k f => rw [runCall] at h; injection h with h; exact .inr (.inr (.inl ⟨k, f, rfl, h.symm⟩))
  | write b f =>
    cases f with
    | true => rw [runCall, hostWrite_failed] at h; cases h; exact .inr (.inr (.inr (.inl ⟨b, rfl, rfl⟩)))
    | false => rw [runCall, hostWrite_copied] at h; exact .inr (.inr (.inr (.inr ⟨b, rfl, h⟩)))

end Sys2Proof.Machine
end

