-- ==== Sys2Proof/Laws/Transceiver.lean ====
section
/-! SUPPORT. One slot at a time: what a write slot, a written byte and a read slot do (R70, R71, R72). -/

namespace Sys2Proof.Machine

/-- `writeSlot(b)` outside any atomic section: the line ends released and the trace gains the slot's six events (R70). -/
theorem runPrims_writeSlot (b : Bool) (s : State) (ho : s.lineOwned = true) (ha : s.atomic = false) :
    runPrims (writeSlotOps b) s =
      .next { s with lineMode := .input, trace := s.trace ++ writeSlotEvents b } := by
  cases b <;>
    simp [writeSlotOps, runPrims_cons, runPrim, atomicBegin, atomicEnd, line, delay, emit, ho, ha, LineOp.mode,
      LineOp.event, writeSlotEvents, Config.tW0Low, Config.tW0Rel, Config.tW1Low, Config.tW1Rel]

/-- `readSlot()`: the slave's next answer is the bit it returns, and `acc` is not touched (R72). -/
theorem runPrims_readSlot (s : State) (ho : s.lineOwned = true) :
    runPrims readSlotOps s = .next { s with
      lineMode := .input
      slotBit := slaveAnswer s 0
      slave := s.slave.tail
      draws := s.draws + 1
      trace := s.trace ++ readSlotEvents (slaveAnswer s 0) } := by
  simp [readSlotOps, runPrims_cons, runPrim, line, delay, emit, sample, ho, LineOp.mode, LineOp.event, lineLevel,
    afterDraw, slaveAnswer, readSlotEvents, Config.tRLow, Config.tRSample, Config.tRRec]

/-- One read bit: the slot, then its bit into bit `i` of `acc` (R73). -/
theorem runPrims_readBit (i : Nat) (s : State) (ho : s.lineOwned = true) :
    runPrims (readBitOps i) s = .next { s with
      lineMode := .input
      acc := s.acc ||| bitAt (slaveAnswer s 0) i
      slotBit := slaveAnswer s 0
      slave := s.slave.tail
      draws := s.draws + 1
      trace := s.trace ++ readSlotEvents (slaveAnswer s 0) } := by
  rw [readBitOps, runPrims_append, runPrims_readSlot s ho]
  rfl

end Sys2Proof.Machine
end

