-- ==== Sys2Proof/Tests/Slice0.lean ====
section
/-! SUPPORT. The model's own tests: the vectors of spec/95_test_vectors.md as single steps on small states, decoder words written
out from spec/30_encoding.md, and for every statement with hypotheses a named witness that meets them together. -/

namespace Sys2Proof.Tests

open Sys2Proof.Machine

/-! ### Small states -/

/-- An idle block with an open session and a released line. -/
def base : State := { State.reset with lineMode := .input, sessionOpen := true }

/-- `base` with 128 records queued. -/
def full : State := { base with queue := List.replicate 128 (recordOf [0x72]) }

/-- `s` with one write pending. -/
def writing (s : State) (bytes : List Byte) : State := { s with host := [.call (.write bytes false)] }

/-- `s` with one host call pending. -/
def calling (s : State) (c : HostCall) : State := { s with host := [.call c] }

/-- Part of a next state. -/
def after {α : Type} (o : StepResult) (f : State → α) : Option α :=
  match o with
  | .next s => some (f s)
  | .fault _ => none
  | .refused _ => none

/-- The outcome is a next state. -/
def isNext (o : StepResult) : Bool := (after o fun _ => ()).isSome

theorem isNext_next {o : StepResult} (h : isNext o = true) : ∃ t, o = .next t := by
  cases o with
  | next t => exact ⟨t, rfl⟩
  | fault e => simp [isNext, after] at h
  | refused e => simp [isNext, after] at h

/-- The bits of a byte list in wire order (R36). -/
def tape (bs : List Byte) : List Bool := bs.flatMap wireBits

/-! ### Well-formedness: one check, met and refused (R50, R51) -/

theorem test_ws_three_wf : (Instr.ws [1, 2, 3]).wf = true := by decide
theorem test_ws_four_illFormed : (Instr.ws [1, 2, 3, 4]).wf = false := by decide

/-! ### Decoding, from the byte strings of 95_test_vectors.md 2.5 and 30_encoding.md R52 -/

/-- DC1 to DC5. -/
theorem test_decode_firstByte :
    decode [0x72] = .r ∧ decode [0x72, 0x53] = .r ∧ decode [0x68, 0x65, 0x6C, 0x6C, 0x6F] = .h ∧ decode [0x6C] = .l ∧
      decode [0x69, 0x0A] = .i := by decide

/-- DC6 to DC12. -/
theorem test_decode_control :
    decode [0x45, 0x43, 0x52, 0x43] = .ecrc ∧ decode [0x65, 0x63, 0x72, 0x63] = .noMatch ∧
      decode [0x45, 0x43, 0x52] = .noMatch ∧ decode [0x44, 0x43, 0x52, 0x43, 0x0A] = .dcrc ∧
      decode [0x46, 0x4C, 0x55, 0x53] = .noMatch ∧ decode [0x46, 0x4C, 0x55, 0x53, 0x48] = .flush ∧
      decode [0x53, 0x49, 0x5A, 0x45] = .size := by decide

/-- DC13 to DC19. -/
theorem test_decode_transactions :
    decode [0x52, 0x41] = .ra ∧ decode [0x52] = .noMatch ∧ decode [0x57, 0x53] = .ws [] ∧
      decode [0x57, 0x53, 0x0A] = .ws [0x0A] ∧ decode [0x57, 0x53, 1, 2, 3, 4] = .ws [1, 2, 3] ∧
      decode [0x52, 0x53, 0x0A] = .rs ∧ decode [0x43, 0x54] = .ct := by decide

/-- DC20 to DC23. -/
theorem test_decode_fallback :
    decode [0x30, 0x61, 0x62, 0x63] = .zero ∧ decode [0x31] = .one ∧ decode [0x32] = .noMatch ∧ decode [] = .noMatch := by
  decide

/-- DC24, DC25: with the length lowered to what was accepted, stale bytes are not compared. -/
theorem test_decode_stale :
    after (dispatch { base with cb := [(0, 0x52), (1, 0x41), (2, 0x53), (3, 0x49), (4, 0x5A), (5, 0x45)], cbLen := 2, slave := [] })
        (fun t => t.tx) = some [0x33] ∧
      after (dispatch { base with cb := [(0, 0x43), (1, 0x54)], cbLen := 1 }) (fun t => (t.ret, t.trace)) =
        some (.count 1, []) := by decide +kernel

/-- Table words, most significant byte first: `CT` and `DCRC`; a `WS` word without payload bits reads zero bytes. -/
theorem test_decode_words :
    decodeTableWord 16 0x4354 = some .ct ∧ decodeTableWord 32 0x44435243 = some .dcrc ∧
      decodeTableWord 16 0x5753 = some (.ws [0, 0, 0]) := by decide

/-! ### One write, one step (95_test_vectors.md 3) -/

/-- CM1. -/
theorem test_r : after (step (writing base [0x72])) (fun t => (t.ret, t.lineMode, t.queue, t.trace)) =
    some (.count 1, .input, [⟨[0x72, 0, 0, 0, 0, 0, 0, 0], 1⟩],
      [.driveLow, .delay 500, .driveHigh, .release, .delay 500]) := by decide
/-- CM2. -/
theorem test_r_full : after (step (writing full [0x72])) (fun t => (t.ret, t.lineMode, t.queue, t.trace.length)) =
    some (.error .queueFull, .input, full.queue, 5) := by decide +kernel
/-- CM3. -/
theorem test_h : after (step (writing base [0x68])) (fun t => (t.ret, t.lineMode, t.queue, t.trace)) =
    some (.count 1, .driveHigh, [⟨[0x68, 0, 0, 0, 0, 0, 0, 0], 1⟩], [.driveHigh]) := by decide
/-- CM4. -/
theorem test_l : after (step (writing base [0x6C])) (fun t => (t.ret, t.lineMode, t.queue, t.trace)) =
    some (.count 1, .driveLow, [⟨[0x6C, 0, 0, 0, 0, 0, 0, 0], 1⟩], [.driveLow]) := by decide
/-- CM5. -/
theorem test_i : after (step (writing { base with lineMode := .driveHigh } [0x69]))
    (fun t => (t.ret, t.lineMode, t.queue, t.trace)) =
      some (.count 1, .input, [⟨[0x69, 0, 0, 0, 0, 0, 0, 0], 1⟩], [.release]) := by decide
/-- CM6. -/
theorem test_ecrc_full : after (step (writing full [0x45, 0x43, 0x52, 0x43]))
    (fun t => (t.ret, t.crcResend, t.queue, t.trace)) = some (.error .queueFull, true, full.queue, []) := by decide +kernel
/-- CM7. -/
theorem test_dcrc : after (step (writing { base with crcResend := true } [0x44, 0x43, 0x52, 0x43]))
    (fun t => (t.ret, t.crcResend, t.queue, t.trace)) =
      some (.count 4, false, [⟨[0x31, 0, 0, 0, 0, 0, 0, 0], 1⟩], []) := by decide
/-- CM8. -/
theorem test_flush_full : after (step (writing full [0x46, 0x4C, 0x55, 0x53, 0x48])) (fun t => (t.ret, t.queue, t.trace)) =
    some (.count 5, [], []) := by decide +kernel
/-- CM11. -/
theorem test_size_127 : after (step (writing { base with queue := List.replicate 127 (recordOf [0x72]) } [0x53, 0x49, 0x5A, 0x45]))
    (fun t => (t.ret, t.queue.length, t.queue.getLast?)) =
      some (.count 4, 128, some ⟨[0x7F, 0, 0, 0, 0, 0, 0, 0], 4⟩) := by decide +kernel
/-- CM12. -/
theorem test_size_128 : after (step (writing full [0x53, 0x49, 0x5A, 0x45])) (fun t => (t.ret, t.queue)) =
    some (.error .queueFull, full.queue) := by decide +kernel
/-- CM13. -/
theorem test_ra : after (step (writing { base with slave := tape [0x28, 0xFF, 0x4B, 0x46, 0x7F, 0xFF, 0x0C, 0x56] } [0x52, 0x41]))
    (fun t => (t.ret, t.queue)) =
      some (.count 2, [⟨[0x28, 0xFF, 0x4B, 0x46, 0x7F, 0xFF, 0x0C, 0x56], 8⟩]) := by decide +kernel
/-- CM16. -/
theorem test_ws : after (step (writing { base with lineMode := .driveHigh } [0x57, 0x53, 0x4B, 0x46, 0x7F]))
    (fun t => (t.ret, t.lineMode, t.queue, t.trace.length)) = some (.count 5, .input, [], 251) := by decide +kernel
/-- CM18. -/
theorem test_ws_long : after (step (writing base [0x57, 0x53, 1, 2, 3, 4, 5])) (fun t => (t.ret, t.tx)) =
    some (.count 7, [0xCC, 0x4E, 1, 2, 3]) := by decide +kernel
/-- CM19, with the bytes of program P2. -/
theorem test_rs : after (step (writing { base with slave := tape [0x50, 0x05, 0x4B, 0x46, 0x7F, 0xFF, 0x0C, 0x10, 0x00] } [0x52, 0x53]))
    (fun t => (t.ret, t.queue)) =
      some (.count 2, [⟨[0x50, 0x05, 0x4B, 0x46, 0x7F, 0xFF, 0x0C, 0x10], 8⟩]) := by decide +kernel
/-- CM21. -/
theorem test_ct : after (step (writing base [0x43, 0x54])) (fun t => (t.ret, t.lineMode, t.queue, t.trace.length)) =
    some (.count 2, .input, [⟨[0x2D, 0, 0, 0, 0, 0, 0, 0], 1⟩], 103) := by decide +kernel
/-- CM24. -/
theorem test_zero_full : after (step (writing full [0x30])) (fun t => (t.ret, t.lineMode, t.queue, t.trace)) =
    some (.count 1, .driveLow, full.queue, [.driveLow]) := by decide +kernel
/-- CM23. -/
theorem test_one : after (step (writing base [0x31, 0x0A])) (fun t => (t.ret, t.lineMode, t.queue, t.trace)) =
    some (.count 2, .driveHigh, [], [.driveHigh]) := by decide
/-- CM25, CM26. -/
theorem test_noMatch : after (step (writing base [0x78, 0x79, 0x7A])) (fun t => (t.ret, t.lineMode, t.queue, t.trace)) =
      some (.count 3, .input, [], []) ∧
    after (step (writing base [])) (fun t => (t.ret, t.cbLen, t.trace)) = some (.count 0, 0, []) := by decide

/-- The fetch of a table word: `RA` runs as the first command after reset. -/
theorem test_fetch_ra : after (step (State.reset.withFetchWord 16 0x5241)) (fun t => (t.ret, t.tx, t.attempt)) =
    some (.count 5, [0x33], 1) := by decide +kernel

/-! ### Host calls (95_test_vectors.md 3.1) -/

/-- HI1, HI2. -/
theorem test_open : after (step (calling State.reset .openSession)) (fun t => (t.ret, t.sessionOpen)) = some (.ok, true) ∧
    after (step (calling base .openSession)) (fun t => (t.ret, t.sessionOpen)) = some (.error .sessionBusy, true) := by decide
/-- HI3, HI4. -/
theorem test_release : after (step (calling base .releaseSession)) (fun t => (t.ret, t.sessionOpen)) = some (.ok, false) ∧
    after (step (calling State.reset .releaseSession)) (fun t => (t.ret, t.sessionOpen)) = some (.ok, false) := by decide
/-- HI6, HI7, HI8, HI11. -/
theorem test_read :
    after (step (calling { base with queue := [recordOf [0x28, 0xFF, 0x4B, 0x46, 0x7F, 0xFF, 0x0C, 0x56]] } (.read 3 false)))
        (fun t => (t.ret, t.queue)) = some (.data [0x28, 0xFF, 0x4B], []) ∧
      after (step (calling { base with queue := [recordOf [0x72]] } (.read 0 false))) (fun t => (t.ret, t.queue)) =
        some (.data [], []) ∧
      after (step (calling base (.read 8 false))) (fun t => (t.ret, t.queue)) = some (.empty, []) ∧
      after (step (calling { base with queue := [recordOf [0x72]] } (.read 8 true))) (fun t => (t.ret, t.queue)) =
        some (.error .copyFault, []) := by decide
/-- HI9, with `0` in place of `RA`: of 600 bytes 512 are accepted. -/
theorem test_write_600 : after (hostWrite ([0x30] ++ List.replicate 599 0) false base) (fun t => (t.ret, t.cbLen, t.lineMode)) =
    some (.count 512, 512, .driveLow) := by
  rw [hostWrite_copied]
  decide +kernel
/-- HI10. -/
theorem test_write_copyFault : after (step (calling base (.write [0x72] true))) (fun t => (t.ret, t.trace, t.cbLen)) =
    some (.error .copyFault, [], 0) := by decide

/-! ### Primitives, the transceiver, the ring (95_test_vectors.md 2) -/

/-- LD7 to LD10. -/
theorem test_atomic : after (sleep 1000 base) (fun t => t.trace) = some [.sleep 1000] ∧
    sleep 1000 { base with atomic := true } = .fault .atomicViolation ∧
    atomicBegin { base with atomic := true } = .fault .atomicViolation ∧ atomicEnd base = .fault .atomicViolation :=
  ⟨by decide, rfl, rfl, rfl⟩

/-- BT4: the bits of 0x33 in wire order, and 49 events. -/
theorem test_writeBits : wireBits 0x33 = [true, true, false, false, true, true, false, false] ∧
    after (runPrims (writeBitsOps [0x33]) base) (fun t => (t.lineMode, t.trace.length)) = some (.input, 49) := by decide

/-- BT8, and the order of R15: when readSlot returns, its bit is not yet in `acc`. -/
theorem test_readSlot : after (runPrims readSlotOps { base with slave := [true] }) (fun t => (t.slotBit, t.acc, t.trace)) =
      some (true, 0, [.driveLow, .delay 9, .release, .delay 15, .sample true, .delay 60]) ∧
    after (runPrims (readBitOps 3) { base with slave := [true] }) (fun t => t.acc) = some 0x08 := by decide

/-- BT9, BT10. -/
theorem test_readBits :
    after (runPrims (readBitsOps 1) { base with slave := tape [0x01] }) (fun t => (t.rx, t.crcOk, t.trace.length)) =
        some ([0x01], false, 50) ∧
      after (runPrims (readBitsOps 1) { base with slave := tape [0x00] }) (fun t => (t.rx, t.crcOk)) =
        some ([0x00], true) := by decide +kernel

/-- R82: one byte a read, the mode on: valid at the second attempt, one sleep; never valid, 20 attempts. -/
theorem test_retry :
    after (checkedRead .readOnly [] 1 { base with crcResend := true, slave := tape [0xFF, 0x00] })
        (fun t => (t.attempt, t.rx, t.trace.count (.sleep 1000))) = some (2, [0x00], 1) ∧
      after (checkedRead .readOnly [] 1 { base with crcResend := true, slave := tape (List.replicate 21 0xFF) })
        (fun t => (t.attempt, t.rx)) = some (20, [0xFF]) := by decide +kernel

/-- FQ6, FQ7. -/
theorem test_ring :
    (ringPush (recordOf [0x72]) { ringReset with head := 127, count := 1 }).2.slots[0]? = some (recordOf [0x72]) ∧
      (ringPush (recordOf [0x72]) { ringReset with head := 127, count := 1 }).2.count = 2 ∧
      (ringPop { ringReset with head := 127, count := 2 }).2.head = 0 ∧
      (ringPop { ringReset with head := 127, count := 2 }).2.count = 1 := by decide +kernel

/-- R76, by hand: the second byte meets the table's answer to the first. -/
theorem test_crc8_fold : crc8 [0x12, 0x34] = Config.crc8Table (Config.crc8Table 0x12 ^^^ 0x34) := rfl

/-- R26, 93_implementation_defined.md: a byte nothing has written reads as any value, here the free one, with no fault. -/
theorem test_unwritten_byte : memRead { base with cb := [(0, 0x52)], cbLen := 2 } 0 2 = .next [0x52, Config.bufferByte 1] := rfl

/-- R24, by hand: `rec(0x28, 0xFF)`. -/
theorem test_record : recordOf [0x28, 0xFF] = ⟨[0x28, 0xFF, 0, 0, 0, 0, 0, 0], 2⟩ := by decide

/-! ### Witnesses: for each statement with hypotheses, a state and operands that meet them together

Where the hypotheses are only that the line is owned (and no section is held, the session open, the block idle), `base` and
`full` meet them. -/

/-- EveryCommandCompletes, CommandReset, the other command statements, ResetSequence, LineOperations: an empty and a full queue. -/
theorem witness_ready : (base.lineOwned = true ∧ base.atomic = false ∧ base.queue.length = 0) ∧
    full.lineOwned = true ∧ full.atomic = false ∧ full.queue.length = 128 := by decide +kernel

/-- DecodeSelectsByToken, DecodeEncodeRoundTrip: well-formed commands, with a full payload for the second clause. -/
theorem witness_roundTrip : (Instr.ws [1, 2, 3]).wf = true ∧ Instr.ws [1, 2, 3] ≠ .noMatch ∧
    (∀ p, Instr.ws [1, 2, 3] = .ws p → p.length = 3) ∧ Instr.one.wf = true ∧ Instr.one ≠ .noMatch ∧
    (∀ p, Instr.one = .ws p → p.length = 3) ∧ decode [0x31, 0x61] ≠ .noMatch :=
  ⟨by decide, by decide, fun p h => (by cases h; rfl), by decide, by decide, fun p h => (by cases h), by decide⟩

/-- StepRunsDecodedCommand: the longest accepted write, and one byte more. -/
theorem witness_stepRuns (n : Nat) (_ : n = 512 ∨ n = 513) :
    (writing base (List.replicate n 0x72)).lineOwned = true ∧ (writing base (List.replicate n 0x72)).seq = .idle ∧
      (writing base (List.replicate n 0x72)).atomic = false ∧ (writing base (List.replicate n 0x72)).sessionOpen = true ∧
      (writing base (List.replicate n 0x72)).host = .call (.write (List.replicate n 0x72) false) :: [] :=
  ⟨rfl, rfl, rfl, rfl, rfl⟩

/-- LeftoverBytesNeverMatter: a step with stale bytes, idle and in the middle of a call. -/
theorem witness_leftover : (∃ t, step { writing base [0x52, 0x41] with cb := [(2, 0x53), (511, 0)] } = .next t) ∧
    ∃ t, step { { base with seq := .busy (.write [0x68] false) 1 } with cb := [(0, 0x68)] } = .next t :=
  ⟨isNext_next (by decide +kernel), isNext_next (by decide +kernel)⟩

/-- A state at the invariant's bounds when `bytes` has 512 bytes: 128 records, all of the buffer accepted, a read pending. -/
def brim (bytes : List Byte) : State :=
  { calling full (.read 8 false) with
    cb := cellsPut [] 0 bytes, cbLen := bytes.length, attempt := 20, rx := List.replicate 9 0, tx := [1, 2, 3, 4, 5] }

theorem brim_inv (bytes : List Byte) (h : bytes.length = 512) : (brim bytes).Inv where
  idle := rfl
  atomicClear := rfl
  queueBound := by show full.queue.length ≤ 128; decide +kernel
  records := by show ∀ r ∈ full.queue, r.wf = true; decide +kernel
  cbCanonical := cellsPut_wf bytes [] 0 (by rw [h]) rfl
  cbLenBound := Nat.le_of_eq h
  cbWritten := fun a ha => by
    have g := cellFind_cellsPut_inside bytes [] 0 a ha
    rw [Nat.zero_add, List.getElem?_eq_getElem ha] at g
    exact Option.isSome_iff_exists.2 ⟨_, g⟩
  attemptBound := by show 20 ≤ 20; decide
  rxBound := by show (List.replicate 9 (0 : Byte)).length ≤ 9; decide
  txBound := by show ([1, 2, 3, 4, 5] : List Byte).length ≤ 5; decide

/-- StepKeepsTheInvariant. -/
theorem witness_invariant : (brim (List.replicate 512 0x72)).Inv ∧ ∃ t, step (brim (List.replicate 512 0x72)) = .next t :=
  ⟨brim_inv _ List.length_replicate, _, rfl⟩

/-- UnownedLineStops, AtomicSection: both clauses, the second with a call pending inside a held section. -/
theorem witness_line : ({ base with lineOwned := false } : State).lineOwned = false ∧
    ({ calling base .openSession with atomic := true } : State).atomic = true ∧
    ({ calling base .openSession with atomic := true } : State).lineOwned = true ∧
    ({ calling base .openSession with atomic := true } : State).seq = .idle ∧
    ({ calling base .openSession with atomic := true } : State).host = .call .openSession :: [] ∧
    base.atomic = false := ⟨rfl, rfl, rfl, rfl, rfl, rfl⟩

/-- RegisterView: the bounds of the count and of the length, both met at once. -/
theorem witness_registerView : (brim (List.replicate 512 0x72)).queue.length ≤ 128 ∧
    (brim (List.replicate 512 0x72)).cbLen ≤ 512 :=
  ⟨(brim_inv _ List.length_replicate).queueBound, (brim_inv _ List.length_replicate).cbLenBound⟩

/-- BufferReadsAndWrites: one byte past the length, a read up to it, a write up to the end and one past it. -/
theorem witness_buffer : base.cbLen < 0 + 1 ∧
    (0 + 2 ≤ ({ base with cb := [(0, 0x52), (1, 0x41)], cbLen := 2 } : State).cbLen ∧ (1 : Nat) < 2) ∧
    511 + ([0x52] : List Byte).length ≤ 512 ∧ (∃ b : Nat, b < 511 ∨ 511 + ([0x52] : List Byte).length ≤ b) ∧
    512 < 512 + ([0x52] : List Byte).length := ⟨by decide, by decide, by decide, ⟨512, by decide⟩, by decide⟩

/-- WriteBitsSendsLsbFirst, ReadBitsAssemblesAnswers, RetryPolicy: one byte and five, a read of one byte. -/
theorem witness_bits : base.lineOwned = true ∧ base.atomic = false ∧ ([0x33] : List Byte) ≠ [] ∧
    ([0xCC, 0x4E, 1, 2, 3] : List Byte) ≠ [] ∧ 1 ≤ 1 := by decide

/-- EchoRoundTrip: the echo of W2. -/
theorem witness_echo : ({ base with slave := tape [0x33, 0xCC] } : State).lineOwned = true ∧
    ({ base with slave := tape [0x33, 0xCC] } : State).atomic = false ∧ ([0x33, 0xCC] : List Byte) ≠ [] ∧
    ({ base with slave := tape [0x33, 0xCC] } : State).slave = ([0x33, 0xCC] : List Byte).flatMap wireBits ++ [] := by decide

/-- CommandSize: the bounds. -/
theorem witness_size : base.queue.length ≤ 128 ∧ full.queue.length ≤ 128 := by decide +kernel

/-- RetryPolicy, CommandReadAddress, CommandReadScratchpad, with the mode off: the one attempt. -/
theorem witness_stops_off (count : Nat) : stopsAt base count 1 :=
  ⟨by decide, by decide, fun j h1 h2 => (by omega), .inr rfl⟩

/-- A block in CRC-resend mode whose slave answers 19 bytes FF and then one byte 00. -/
def retrying : State := { base with crcResend := true, slave := tape (List.replicate 19 0xFF ++ [0x00]) }

/-- RetryPolicy with the mode on: stopped at the second attempt by a valid CRC, and at the twentieth by the count. -/
theorem witness_stops_on : stopsAt { retrying with slave := tape [0xFF, 0x00] } 1 2 ∧
    stopsAt { retrying with slave := tape (List.replicate 20 0xFF) } 1 20 ∧ stopsAt retrying 1 20 := by
  have step : ∀ s : State, (∀ j, j < 20 → 1 ≤ j → crcMatches (attemptBytes s 1 j) = false) →
      ∀ j, 1 ≤ j → j < 20 → crcMatches (attemptBytes s 1 j) = false := fun s h j h1 h2 => h j h2 h1
  exact ⟨⟨by decide, by decide, fun j h1 h2 => (by
      obtain rfl : j = 1 := by omega
      decide +kernel), .inl (by decide +kernel)⟩,
    ⟨by decide, by decide, step _ (by decide +kernel), .inr rfl⟩, ⟨by decide, by decide, step _ (by decide +kernel), .inr rfl⟩⟩

/-- CommandWriteScratchpad: the shortest and the longest payload. -/
theorem witness_payload : ([] : List Byte).length ≤ 3 ∧ ([1, 2, 3] : List Byte).length ≤ 3 := by decide

/-- ReturnValueAndOneRecord, CommandFrame, NominalDurations: every kind of command answers a next state. -/
theorem witness_exec : ∀ cmd ∈ [Instr.r, .h, .l, .i, .ecrc, .dcrc, .flush, .size, .ra, .ws [], .ws [1, 2, 3], .rs, .ct, .zero, .one,
    .noMatch], (∃ t, exec cmd base = .next t) ∧ ∃ t, exec cmd full = .next t := by
  have h : ∀ cmd ∈ [Instr.r, .h, .l, .i, .ecrc, .dcrc, .flush, .size, .ra, .ws [], .ws [1, 2, 3], .rs, .ct, .zero, .one,
    .noMatch], isNext (exec cmd base) = true ∧ isNext (exec cmd full) = true := by decide +kernel
  exact fun cmd hc => ⟨isNext_next (h cmd hc).1, isNext_next (h cmd hc).2⟩

/-- QueueFullUndoesNothing. -/
theorem witness_queueFull : pushesResult .ecrc = true ∧ full.queue.length = 128 ∧
    ∃ u, exec .ecrc { full with queue := [] } = .next u := ⟨rfl, by decide +kernel, _, rfl⟩

/-- EntryLineModeIrrelevant: both kinds of command. -/
theorem witness_entryMode : Instr.ra ∈ [Instr.r, .ra, .rs, .ct] ∧ ∃ p, Instr.ws [1] = .ws p := ⟨by decide, _, rfl⟩

/-- PushAndPop, QueueIsFifo: the bounds. -/
theorem witness_queue : (List.replicate 128 (recordOf [0x72])).length = 128 ∧
    (List.replicate 127 (recordOf [0x72])).length < 128 ∧ (List.replicate 128 (recordOf [0x72])).length ≤ 128 := by simp

/-- RingRefinesQueue: an empty ring, a full one, and one whose records wrap. -/
theorem witness_ring : ringReset.wf = true ∧ ({ ringReset with head := 127, count := 128 } : Ring).wf = true ∧
    ({ ringReset with head := 127, count := 2 } : Ring).wf = true := by decide +kernel

/-- OpenSession, ReleaseSession: a closed and an open session. -/
theorem witness_session :
    (∀ s ∈ [calling base .openSession, calling { base with sessionOpen := false } .openSession],
      s.lineOwned = true ∧ s.seq = .idle ∧ s.atomic = false ∧ s.host = .call .openSession :: []) ∧
    (calling base .openSession).sessionOpen = true ∧
    (calling { base with sessionOpen := false } .openSession).sessionOpen = false ∧
    (calling base .releaseSession).host = .call .releaseSession :: [] := by decide

/-- WriteCopiesOrFaults, ReadReturnsOldestRecord, NoMoveWithoutSession: each clause. -/
theorem witness_calls :
    (calling base (.write [0x68] true)).host = .call (.write [0x68] true) :: [] ∧
    (writing base [0x68]).host = .call (.write [0x68] false) :: [] ∧
    (calling base (.read 0 false)).host = .call (.read 0 false) :: [] ∧ (calling base (.read 0 false)).queue = [] ∧
    (calling full (.read 8 true)).host = .call (.read 8 true) :: [] ∧
    (calling full (.read 8 true)).queue = recordOf [0x72] :: List.replicate 127 (recordOf [0x72]) ∧
    (calling full (.read 9 false)).host = .call (.read 9 false) :: [] ∧
    ({ writing base [] with sessionOpen := false } : State).sessionOpen = false := by decide +kernel

/-- OverlapIsAFault, TeardownEndsTheMachine: each clause. -/
theorem witness_events :
    ({ base with host := [.overlap (.write [] false) (.write [0x72] false)] } : State).host =
        .overlap (.write [] false) (.write [0x72] false) :: [] ∧
      ({ base with host := [.overlap (.read 0 false) (.read 8 true)] } : State).host =
        .overlap (.read 0 false) (.read 8 true) :: [] ∧
      ({ base with host := [.teardown] } : State).host = .teardown :: [] ∧ base.lineOwned = true ∧ base.seq = .idle := by decide

/-- OverlapIsAFault, the mixed overlap: a write over a read is neither two writes nor two reads. -/
theorem witness_mixed_overlap : ∃ (s : State) (a b : HostCall), s.lineOwned = true ∧ s.seq = .idle ∧ s.host = .overlap a b :: [] ∧
    (¬ ∃ x f y g, a = .write x f ∧ b = .write y g) ∧ (¬ ∃ x f y g, a = .read x f ∧ b = .read y g) :=
  ⟨{ base with host := [.overlap (.write [] false) (.read 8 false)] }, .write [] false, .read 8 false, by simp [base, State.reset]⟩

/-- RecordHoldsItsBytes: the empty record and a full one. -/
theorem witness_record : ([] : List Byte).length ≤ 8 ∧ (List.replicate 8 (0x72 : Byte)).length ≤ 8 := by decide

/-- ReadAfterWriteSeesItsRecord. -/
theorem witness_readAfterWrite :
    ∃ s t : State, s.lineOwned = true ∧ s.seq = .idle ∧ s.atomic = false ∧ s.sessionOpen = true ∧ s.queue = [] ∧
      s.host = .call (.write [0x68] false) :: .call (.read 8 false) :: [] ∧
      pushesResult (decode (([0x68] : List Byte).take 512)) = true ∧ step s = .next t :=
  ⟨{ base with host := [.call (.write [0x68] false), .call (.read 8 false)] }, _, rfl, rfl, rfl, rfl, rfl, rfl, by decide, rfl⟩

/-- OnlyModeCommandsChangeResend: to true, and to false. -/
theorem witness_mode :
    (∃ t, step (writing base [0x45, 0x43, 0x52, 0x43]) = .next t ∧ t.crcResend ≠ (writing base []).crcResend) ∧
      ∃ t, step (writing { base with crcResend := true } [0x44, 0x43, 0x52, 0x43]) = .next t ∧ t.crcResend ≠ true :=
  ⟨⟨_, rfl, by decide⟩, ⟨_, rfl, by decide⟩⟩

/-- OnlyOpenAndReleaseChangeSession: to true, and to false. -/
theorem witness_sessionFlag :
    (∃ t, step (calling { base with sessionOpen := false } .openSession) = .next t ∧ t.sessionOpen ≠ false) ∧
      ∃ t, step (calling base .releaseSession) = .next t ∧ t.sessionOpen ≠ true :=
  ⟨⟨_, rfl, by decide⟩, ⟨_, rfl, by decide⟩⟩

/-- TraceOnlyGrows: a step from an idle block and one in the middle of a call. -/
theorem witness_trace : (∃ t, step (writing base [0x72]) = .next t) ∧
    ∃ t, step { base with seq := .busy (.write [0x72] false) 1 } = .next t := ⟨⟨_, rfl⟩, ⟨_, rfl⟩⟩

/-- BigStepIsItsMicroSteps: a call that needs the session, and one that does not. -/
theorem witness_bigStep : base.lineOwned = true ∧ base.atomic = false ∧
    (needsSession (.write [0x52, 0x41] false) = true → base.sessionOpen = true) ∧
    (needsSession .openSession = true → State.reset.sessionOpen = true) := by decide

end Sys2Proof.Tests
end

section
/-! SUPPORT. Which part of the state a primitive step can write, and so what a sequence of them leaves alone
(10_state.md R18 to R28). -/

namespace Sys2Proof.Machine

/-- A group of fields that primitive steps write together. -/
inductive Part where
  /-- The line mode and the trace (R19, R28). -/
  | wire
  /-- The atomic flag (R20). -/
  | atomic
  /-- `tx` (R18). -/
  | send
  /-- `acc`, `crc`, `crc_ok`, `rx`, the last slot's bit, and the slave's answers with the count of draws (R18, R29). -/
  | receive
  /-- `attempt` (R18). -/
  | attempts
  /-- `crc_resend` (R21). -/
  | mode
  /-- The queue (R25). -/
  | queue
  /-- `cb` and `cb_len` (R26). -/
  | buffer
  deriving DecidableEq

/-- The two states agree in a part. -/
def Part.Same (x : Part) (s t : State) : Prop :=
  match x with
  | .wire => t.lineMode = s.lineMode ∧ t.trace = s.trace
  | .atomic => t.atomic = s.atomic
  | .send => t.tx = s.tx
  | .receive => t.acc = s.acc ∧ t.crc = s.crc ∧ t.crcOk = s.crcOk ∧ t.rx = s.rx ∧ t.slotBit = s.slotBit ∧
      t.slave = s.slave ∧ t.draws = s.draws
  | .attempts => t.attempt = s.attempt
  | .mode => t.crcResend = s.crcResend
  | .queue => t.queue = s.queue
  | .buffer => t.cb = s.cb ∧ t.cbLen = s.cbLen

/-- The parts a primitive step may write. -/
def Prim.writes : Prim → List Part
  | .line _ => [.wire]
  | .delay _ => [.wire]
  | .sleep _ => [.wire]
  | .atomicBegin => [.wire, .atomic]
  | .atomicEnd => [.wire, .atomic]
  | .setTx _ => [.send]
  | .clearRx => [.receive]
  | .clearAcc => [.receive]
  | .sample => [.wire, .receive]
  | .shiftIn _ => [.receive]
  | .storeByte => [.receive]
  | .checkCrc => [.receive]
  | .setResend _ => [.mode]
  | .flush => [.queue]
  | .firstAttempt => [.attempts]
  | .nextAttempt => [.attempts]
  | .load _ => [.buffer]
  | .refuse _ => []

@[simp] theorem Part.same_refl (x : Part) (s : State) : x.Same s s := by cases x <;> simp [Part.Same]

theorem Part.Same.trans {x : Part} {s t u : State} (h : x.Same s t) (g : x.Same t u) : x.Same s u := by
  cases x <;> simp_all [Part.Same]

/-- A primitive step leaves every part alone that it does not write. -/
theorem runPrim_same {p : Prim} {x : Part} {s t : State} (h : runPrim p s = .next t) (hx : x ∉ p.writes) :
    x.Same s t := by
  cases p with
  | line o => obtain ⟨_, rfl⟩ := line_next h; cases x <;> simp_all [Part.Same, Prim.writes]
  | sleep ms => obtain ⟨_, rfl⟩ := sleep_next h; cases x <;> simp_all [Part.Same, Prim.writes]
  | atomicBegin => obtain ⟨_, rfl⟩ := atomicBegin_next h; cases x <;> simp_all [Part.Same, Prim.writes]
  | atomicEnd => obtain ⟨_, rfl⟩ := atomicEnd_next h; cases x <;> simp_all [Part.Same, Prim.writes]
  | sample => obtain ⟨_, rfl⟩ := sample_next h; cases x <;> simp_all [Part.Same, Prim.writes]
  | checkCrc => obtain ⟨_, rfl⟩ := checkCrc_next h; cases x <;> simp_all [Part.Same, Prim.writes]
  | load b => rw [runPrim, load_eq] at h; cases h; cases x <;> simp_all [Part.Same, Prim.writes]
  | refuse e => cases h
  | _ => cases h; cases x <;> simp_all [Part.Same, Prim.writes]

/-! ### Sequences -/

/-- A sequence answers a next state through its first part and then its second. -/
theorem runPrims_append_next {ps qs : List Prim} {s t : State} (h : runPrims (ps ++ qs) s = .next t) :
    ∃ u, runPrims ps s = .next u ∧ runPrims qs u = .next t :=
  andThen_eq_next.1 (runPrims_append ps qs s ▸ h)

/-- All a sequence's steps write only the parts `xs`. -/
abbrev WritesOnly (xs : List Part) (ps : List Prim) : Prop := ∀ p ∈ ps, ∀ x ∈ p.writes, x ∈ xs

theorem WritesOnly.append {xs : List Part} {ps qs : List Prim} (hp : WritesOnly xs ps) (hq : WritesOnly xs qs) :
    WritesOnly xs (ps ++ qs) := fun p h => (List.mem_append.1 h).elim (hp p) (hq p)

theorem WritesOnly.flatMap {α : Type} {xs : List Part} {f : α → List Prim} (h : ∀ a, WritesOnly xs (f a)) (as : List α) :
    WritesOnly xs (as.flatMap f) := fun p hp => by
  obtain ⟨a, _, ha⟩ := List.mem_flatMap.1 hp
  exact h a p ha

theorem WritesOnly.mono {xs ys : List Part} {ps : List Prim} (h : WritesOnly xs ps) (hxy : xs ⊆ ys) :
    WritesOnly ys ps := fun p hp x hx => hxy (h p hp x hx)

/-- A sequence leaves every part alone that none of its steps writes. -/
theorem WritesOnly.same {xs : List Part} {ps : List Prim} (h : WritesOnly xs ps) {x : Part} (hx : x ∉ xs) {s t : State}
    (hr : runPrims ps s = .next t) : x.Same s t :=
  runPrims_keeps (P := x.Same s) ps
    (fun p hp _ _ hu hv => hu.trans (runPrim_same hv fun hw => hx (h p hp x hw))) s t (x.same_refl s) hr

/-- A sequence changes neither the line handle, the session, the sequencer, the result nor the host's moves, and the trace only
gains events (R28). -/
theorem runPrims_frame {ps : List Prim} {s t : State} (h : runPrims ps s = .next t) :
    t.lineOwned = s.lineOwned ∧ t.sessionOpen = s.sessionOpen ∧ t.seq = s.seq ∧ t.ret = s.ret ∧ t.host = s.host ∧
      s.trace <+: t.trace := by
  induction ps generalizing s with
  | nil => cases h; simp
  | cons p ps ih =>
    obtain ⟨u, hu, h⟩ := andThen_eq_next.1 h
    obtain ⟨ho, hs, hq, hr, hh, ht⟩ := runPrim_frame hu
    obtain ⟨ho', hs', hq', hr', hh', ht'⟩ := ih h
    exact ⟨ho'.trans ho, hs'.trans hs, hq'.trans hq, hr'.trans hr, hh'.trans hh, ht.trans ht'⟩

/-! ### What the transceiver's sequences write -/

theorem resetOps_writes : WritesOnly [.wire] resetOps := by decide

theorem writeSlotOps_writes (b : Bool) : WritesOnly [.wire, .atomic] (writeSlotOps b) := by cases b <;> decide

theorem writeByteOps_writes (b : Byte) : WritesOnly [.wire, .atomic] (writeByteOps b) :=
  .append (.flatMap writeSlotOps_writes _) (by simp [WritesOnly, Prim.writes])

theorem writeBitsOps_writes : ∀ bs, WritesOnly [.wire, .atomic, .send] (writeBitsOps bs)
  | [] => by simp [WritesOnly, writeBitsOps, Prim.writes]
  | b :: bs =>
    .append (ps := [_]) (by simp [WritesOnly, Prim.writes])
      (.mono (.flatMap writeByteOps_writes (b :: bs)) (by simp))

/-- The lead-in of a transaction: reset, the bytes `tx`, a wait or none (R91 to R94). -/
theorem lead_writes (tx : List Byte) (w : List Prim) (hw : WritesOnly [.wire] w) :
    WritesOnly [.wire, .atomic, .send] (resetOps ++ writeBitsOps tx ++ w) :=
  .append (.append (resetOps_writes.mono (by simp)) (writeBitsOps_writes tx)) (hw.mono (by simp))

theorem readByteOps_writes : WritesOnly [.wire, .receive] readByteOps := by decide

/-- The slots of a read, between the bounds of its atomic section (R73). -/
theorem readBytes_writes (n : Nat) : WritesOnly [.wire, .receive] (List.replicate n readByteOps).flatten := fun p hp => by
  obtain ⟨ps, hps, hp⟩ := List.mem_flatten.1 hp
  rw [List.eq_of_mem_replicate hps] at hp
  exact readByteOps_writes p hp

theorem readBitsOps_writes : ∀ n, WritesOnly [.wire, .atomic, .receive] (readBitsOps n)
  | 0 => by simp [WritesOnly, readBitsOps, Prim.writes]
  | n + 1 => .append (.append (by decide) ((readBytes_writes (n + 1)).mono (by simp))) (by decide)

theorem retryOps_writes : WritesOnly [.wire, .attempts] retryOps := by decide

/-! ### What a sequence leaves in the atomic flag (R65) -/

/-- Where the sequence ends, the atomic flag is what it was. -/
def KeepsAtomic (ps : List Prim) : Prop := ∀ s t, runPrims ps s = .next t → t.atomic = s.atomic

theorem WritesOnly.keepsAtomic {xs : List Part} {ps : List Prim} (h : WritesOnly xs ps) (hx : .atomic ∉ xs) :
    KeepsAtomic ps := fun _ _ hr => h.same hx hr

theorem KeepsAtomic.append {ps qs : List Prim} (hp : KeepsAtomic ps) (hq : KeepsAtomic qs) : KeepsAtomic (ps ++ qs) :=
  fun s t h => by
    obtain ⟨u, hu, h⟩ := runPrims_append_next h
    exact (hq u t h).trans (hp s u hu)

theorem KeepsAtomic.flatMap {α : Type} {f : α → List Prim} (h : ∀ a, KeepsAtomic (f a)) (as : List α) :
    KeepsAtomic (as.flatMap f) := by
  induction as with
  | nil => intro s t hr; cases hr; rfl
  | cons a as ih => exact (h a).append ih

/-- A section opened and closed again: it was open neither before nor after, whatever stands between (R65). -/
theorem keepsAtomic_section (ps : List Prim) : KeepsAtomic (.atomicBegin :: ps ++ [.atomicEnd]) := fun s t hr => by
  obtain ⟨u, hu, hr⟩ := andThen_eq_next.1 hr
  obtain ⟨hs, -⟩ := atomicBegin_next hu
  obtain ⟨v, -, hr⟩ := runPrims_append_next hr
  obtain ⟨w, hw, hr⟩ := andThen_eq_next.1 hr
  obtain ⟨-, rfl⟩ := atomicEnd_next hw
  cases hr
  exact hs.symm

theorem writeSlotOps_keepsAtomic (b : Bool) : KeepsAtomic (writeSlotOps b) := keepsAtomic_section [_, _, _, _]

theorem writeBitsOps_keepsAtomic : ∀ bs, KeepsAtomic (writeBitsOps bs)
  | [] => fun _ _ h => nomatch h
  | b :: bs =>
    .append (ps := [_]) (WritesOnly.keepsAtomic (xs := [.send]) (by simp [WritesOnly, Prim.writes]) (by decide))
      (.flatMap (fun _ => .append (.flatMap writeSlotOps_keepsAtomic _)
        (WritesOnly.keepsAtomic (xs := [.wire]) (by decide) (by decide))) (b :: bs))

theorem lead_keepsAtomic (tx : List Byte) (w : List Prim) (hw : WritesOnly [.wire] w) :
    KeepsAtomic (resetOps ++ writeBitsOps tx ++ w) :=
  .append (.append (resetOps_writes.keepsAtomic (by decide)) (writeBitsOps_keepsAtomic tx)) (hw.keepsAtomic (by decide))

theorem readBitsOps_keepsAtomic : ∀ n, KeepsAtomic (readBitsOps n)
  | 0 => fun _ _ h => nomatch h
  | n + 1 => by
    have hsec := keepsAtomic_section (.clearRx :: (List.replicate (n + 1) readByteOps).flatten)
    have hcrc : KeepsAtomic [.checkCrc] := WritesOnly.keepsAtomic (xs := [.receive]) (by decide) (by decide)
    simpa [readBitsOps] using hsec.append hcrc

/-! ### What a sequence leaves in `rx` and `tx` (R18) -/

/-- One step makes `rx` a byte longer when it is `storeByte`, and only `clearRx` changes its length otherwise (R73). -/
theorem runPrim_rx_length {p : Prim} {s t : State} (h : runPrim p s = .next t) (hc : p ≠ .clearRx) :
    t.rx.length = s.rx.length + [p].count .storeByte := by
  cases p with
  | clearRx => exact absurd rfl hc
  | storeByte => cases h; simp
  | checkCrc => obtain ⟨_, rfl⟩ := checkCrc_next h; simp
  | sample => obtain ⟨_, rfl⟩ := sample_next h; simp
  | clearAcc => cases h; simp
  | shiftIn i => cases h; simp
  | _ =>
    obtain ⟨-, -, -, hrx, -⟩ := runPrim_same (x := .receive) h (by simp [Prim.writes])
    simp [hrx]

/-- Without a `clearRx`, a sequence makes `rx` longer by the number of its `storeByte`s (R73). -/
theorem runPrims_rx_length {ps : List Prim} {s t : State} (h : runPrims ps s = .next t) (hc : .clearRx ∉ ps) :
    t.rx.length = s.rx.length + ps.count .storeByte := by
  induction ps generalizing s with
  | nil => cases h; simp
  | cons p ps ih =>
    obtain ⟨u, hu, h⟩ := andThen_eq_next.1 h
    rw [List.mem_cons, not_or] at hc
    rw [ih h hc.2, runPrim_rx_length hu (Ne.symm hc.1), ← List.singleton_append (l := ps), List.count_append]
    omega

/-- A read of `n` bytes leaves `n` bytes in `rx` (R73). -/
theorem readBitsOps_rx_length {n : Nat} {s t : State} (h : runPrims (readBitsOps n) s = .next t) : t.rx.length = n := by
  cases n with
  | zero => cases h
  | succ n =>
    obtain ⟨v, hv, h⟩ := runPrims_append_next h
    obtain ⟨u, hu, hv⟩ := runPrims_append_next hv
    have hu0 : u.rx = [] := by
      obtain ⟨w, hw, hu⟩ := andThen_eq_next.1 hu
      cases hu; rfl
    have hstores : ∀ k, (List.replicate k readByteOps).flatten.count .storeByte = k := fun k => by
      rw [List.count_flatten, List.map_replicate, List.sum_replicate]
      exact Nat.mul_one k
    have hclear : .clearRx ∉ (List.replicate (n + 1) readByteOps).flatten := by
      simp only [List.mem_flatten, List.mem_replicate]
      rintro ⟨_, ⟨-, rfl⟩, hm⟩
      exact absurd hm (by decide)
    rw [runPrims_rx_length h (by decide), runPrims_rx_length hv hclear, hu0, hstores]
    simp

/-- `tx` stays within five bytes in a sequence that sends no longer list (R18). -/
theorem runPrims_tx_le {ps : List Prim} {s t : State} (hs : s.tx.length ≤ 5) (hp : ∀ bs, .setTx bs ∈ ps → bs.length ≤ 5)
    (h : runPrims ps s = .next t) : t.tx.length ≤ 5 :=
  runPrims_keeps (P := fun u => u.tx.length ≤ 5) ps
    (fun p hm u v hu hv => by
      by_cases hw : .send ∈ p.writes
      · cases p <;> simp [Prim.writes] at hw
        cases hv; exact hp _ hm
      · have htx : v.tx = u.tx := runPrim_same hv hw
        rwa [htx])
    s t hs h

/-- `writeBits(tx)` sends no other list than `tx` (R71). -/
theorem setTx_mem_writeBitsOps {xs bs : List Byte} (h : .setTx xs ∈ writeBitsOps bs) : xs = bs := by
  cases bs with
  | nil => simp [writeBitsOps] at h
  | cons b bs =>
    rcases List.mem_cons.1 h with h | h
    · simpa using h
    · exact absurd (WritesOnly.flatMap writeByteOps_writes (b :: bs) _ h .send (by simp [Prim.writes])) (by decide)

end Sys2Proof.Machine
end

section
/-! SUPPORT. Every command is a body of primitive steps and a last step (43_dispatcher.md R79): what the body keeps, what the last
step does, and so what a command leaves alone. -/

namespace Sys2Proof.Machine

/-! ### The two shapes of a command's body -/

/-- What a command runs before its last step. -/
inductive Body where
  /-- A sequence without a loop. -/
  | straight (ps : List Prim)
  /-- A checked read of `count` bytes behind the lead-in `lead` (R82). -/
  | checked (lead : List Prim) (count : Nat)

/-- What a body does: a checked read under the block's own retry scope. -/
def Body.run : Body → State → StepResult
  | .straight ps => runPrims ps
  | .checked lead count => checkedRead Config.retryScope lead count

/-- The sequences a body runs. -/
def Body.parts : Body → List (List Prim)
  | .straight ps => [ps]
  | .checked lead count =>
    [leadOnce Config.retryScope lead ++ [.firstAttempt], attemptOps Config.retryScope lead count, retryOps]

theorem forall_parts_straight {Q : List Prim → Prop} {ps : List Prim} (h : Q ps) : ∀ qs ∈ (Body.straight ps).parts, Q qs := by
  simpa [Body.parts] using h

theorem forall_parts_checked {Q : List Prim → Prop} {lead : List Prim} {count : Nat}
    (honce : Q (leadOnce Config.retryScope lead ++ [.firstAttempt])) (hattempt : Q (attemptOps Config.retryScope lead count))
    (hretry : Q retryOps) : ∀ ps ∈ (Body.checked lead count).parts, Q ps := by
  simp only [Body.parts, List.mem_cons, List.not_mem_nil, or_false]
  rintro ps (rfl | rfl | rfl)
  · exact honce
  · exact hattempt
  · exact hretry

/-- What each of its sequences keeps, the body keeps. -/
theorem Body.run_keeps {P : State → Prop} {b : Body}
    (h : ∀ ps ∈ b.parts, ∀ s t, P s → runPrims ps s = .next t → P t) {s t : State} (hs : P s)
    (hr : b.run s = .next t) : P t := by
  cases b with
  | straight ps => exact h ps (by simp [Body.parts]) s t hs hr
  | checked lead count =>
    obtain ⟨u, hu, hr⟩ := checkedRead_next hr
    exact attemptLoop_keeps (h _ (by simp [Body.parts])) (h retryOps (by simp [Body.parts])) _ u t
      (h _ (by simp [Body.parts]) s u hs hu) hr

/-- The body of a command. -/
def commandBody : Instr → Body
  | .r => .straight resetOps
  | .h => .straight [.line .driveHigh]
  | .l => .straight [.line .driveLow]
  | .i => .straight [.line .release]
  | .ecrc => .straight [.setResend true]
  | .dcrc => .straight [.setResend false]
  | .flush => .straight [.flush]
  | .size => .straight []
  | .ra => .checked raLead raCount
  | .ws p => .straight (wsOps p)
  | .rs => .checked rsLead rsCount
  | .ct => .straight ctOps
  | .zero => .straight [.line .driveLow]
  | .one => .straight [.line .driveHigh]
  | .noMatch => .straight []

/-- What a command queues, if it queues a result. -/
def commandResult : Instr → Option ResultForm
  | .r => some (.bytes [0x72])
  | .h => some (.bytes [0x68])
  | .l => some (.bytes [0x6C])
  | .i => some (.bytes [0x69])
  | .ecrc => some (.bytes [0x31])
  | .dcrc => some (.bytes [0x31])
  | .flush => none
  | .size => some .queueLength
  | .ra => some (.received 8)
  | .ws _ => none
  | .rs => some (.received 8)
  | .ct => some (.bytes [0x2D])
  | .zero => none
  | .one => none
  | .noMatch => none

/-- The last step of a command that queues `g`, or queues nothing. -/
def resultFinish : Option ResultForm → Finish
  | some g => .push g
  | none => .count

theorem exec_eq (cmd : Instr) (s : State) :
    exec cmd s = andThen ((commandBody cmd).run s) fun t => .next (runFinish (resultFinish (commandResult cmd)) t) := by
  cases cmd <;> rfl

theorem pushesResult_eq (cmd : Instr) : pushesResult cmd = (commandResult cmd).isSome := by cases cmd <;> rfl

theorem exec_next {cmd : Instr} {s t : State} (h : exec cmd s = .next t) :
    ∃ u, (commandBody cmd).run s = .next u ∧ t = runFinish (resultFinish (commandResult cmd)) u := by
  rw [exec_eq] at h
  obtain ⟨u, hu, h⟩ := andThen_eq_next.1 h
  cases h
  exact ⟨u, hu, rfl⟩

/-! ### The last step -/

/-- All the last step of a command can do: it ends the call with a result, and queues at most one record, which is made by
`recordOf` and goes in only where there is room (R79, R80). -/
theorem runFinish_result (g : Option ResultForm) (s : State) :
    ∃ q r, runFinish (resultFinish g) s = { s with queue := q, ret := r, seq := .idle } ∧
      (q = s.queue ∨ g.isSome ∧ s.queue.length ≠ Config.queueCap ∧ ∃ bs, q = s.queue ++ [recordOf bs]) := by
  cases g with
  | none => exact ⟨s.queue, .count s.cbLen, rfl, .inl rfl⟩
  | some g =>
    by_cases hq : s.queue.length = Config.queueCap
    · exact ⟨s.queue, .error .queueFull, pushResult_full _ s hq, .inl rfl⟩
    · have hrec : ∃ bs, resultRecord g s = recordOf bs := by cases g <;> exact ⟨_, rfl⟩
      obtain ⟨bs, hbs⟩ := hrec
      exact ⟨_, _, pushResult_room _ s hq, .inr ⟨rfl, hq, bs, by rw [hbs]⟩⟩

/-! ### What a command writes -/

/-- The parts a command's body writes. -/
def commandWrites : Instr → List Part
  | .r => [.wire]
  | .h => [.wire]
  | .l => [.wire]
  | .i => [.wire]
  | .ecrc => [.mode]
  | .dcrc => [.mode]
  | .flush => [.queue]
  | .size => []
  | .ra => [.wire, .atomic, .send, .receive, .attempts]
  | .ws _ => [.wire, .atomic, .send]
  | .rs => [.wire, .atomic, .send, .receive, .attempts]
  | .ct => [.wire, .atomic, .send]
  | .zero => [.wire]
  | .one => [.wire]
  | .noMatch => []

theorem raLead_writes : WritesOnly [.wire, .atomic, .send] raLead := lead_writes _ _ (by decide)

theorem rsLead_writes : WritesOnly [.wire, .atomic, .send] rsLead := lead_writes _ _ (by decide)

theorem wsOps_writes (p : List Byte) : WritesOnly [.wire, .atomic, .send] (wsOps p) := lead_writes _ _ (by decide)

/-- `CT` is the lead-in without a wait (R94). -/
theorem ctOps_eq_lead : ctOps = resetOps ++ writeBitsOps romConvert ++ [] := (List.append_nil _).symm

theorem ctOps_writes : WritesOnly [.wire, .atomic, .send] ctOps := ctOps_eq_lead ▸ lead_writes _ [] (by decide)

/-- An attempt writes no attempt counter and no mode, under either scope (R81). -/
theorem attemptOps_writes {lead : List Prim} (h : WritesOnly [.wire, .atomic, .send] lead) (scope : RetryScope) (count : Nat) :
    WritesOnly [.wire, .atomic, .send, .receive] (attemptOps scope lead count) := by
  have hread := (readBitsOps_writes count).mono (ys := [.wire, .atomic, .send, .receive]) (by simp)
  cases scope with
  | wholeTransaction => exact .append (h.mono (by simp)) hread
  | readOnly => exact hread

theorem leadOnce_writes {lead : List Prim} (h : WritesOnly [.wire, .atomic, .send] lead) (scope : RetryScope) :
    WritesOnly [.wire, .atomic, .send] (leadOnce scope lead) := by
  cases scope with
  | wholeTransaction => simp [leadOnce, WritesOnly]
  | readOnly => exact h

theorem checked_writes {lead : List Prim} (h : WritesOnly [.wire, .atomic, .send] lead) (count : Nat) :
    ∀ ps ∈ (Body.checked lead count).parts, WritesOnly [.wire, .atomic, .send, .receive, .attempts] ps :=
  forall_parts_checked (.append ((leadOnce_writes h _).mono (by simp)) (by decide))
    ((attemptOps_writes h _ count).mono (by simp)) (retryOps_writes.mono (by simp))

theorem commandBody_writes (cmd : Instr) : ∀ ps ∈ (commandBody cmd).parts, WritesOnly (commandWrites cmd) ps := by
  cases cmd with
  | ra => exact checked_writes raLead_writes _
  | rs => exact checked_writes rsLead_writes _
  | ws p => exact forall_parts_straight (wsOps_writes p)
  | ct => exact forall_parts_straight ctOps_writes
  | _ => exact forall_parts_straight (by decide)

/-- A command's body leaves every part alone that it does not write. -/
theorem commandBody_same {cmd : Instr} {x : Part} (hx : x ∉ commandWrites cmd) {s t : State}
    (h : (commandBody cmd).run s = .next t) : x.Same s t :=
  Body.run_keeps (P := x.Same s) (fun ps hps _ _ hu hv => hu.trans ((commandBody_writes cmd ps hps).same hx hv))
    (x.same_refl s) h

/-- What no body changes; and the trace only gains events (R28). -/
theorem Body.run_frame {b : Body} {s t : State} (h : b.run s = .next t) :
    t.lineOwned = s.lineOwned ∧ t.sessionOpen = s.sessionOpen ∧ t.host = s.host ∧ s.trace <+: t.trace :=
  Body.run_keeps
    (P := fun u => u.lineOwned = s.lineOwned ∧ u.sessionOpen = s.sessionOpen ∧ u.host = s.host ∧ s.trace <+: u.trace)
    (fun _ _ u v hu hv => by
      obtain ⟨ho, hs, hh, ht⟩ := hu
      obtain ⟨ho', hs', -, -, hh', ht'⟩ := runPrims_frame hv
      exact ⟨ho'.trans ho, hs'.trans hs, hh'.trans hh, ht.trans ht'⟩)
    ⟨rfl, rfl, rfl, List.prefix_refl _⟩ h

/-! ### The atomic flag -/

theorem attemptOps_keepsAtomic {lead : List Prim} (h : KeepsAtomic lead) (scope : RetryScope) (count : Nat) :
    KeepsAtomic (attemptOps scope lead count) := by
  cases scope with
  | wholeTransaction => exact h.append (readBitsOps_keepsAtomic count)
  | readOnly => exact readBitsOps_keepsAtomic count

theorem leadOnce_keepsAtomic {lead : List Prim} (h : KeepsAtomic lead) (scope : RetryScope) :
    KeepsAtomic (leadOnce scope lead) := by
  cases scope with
  | wholeTransaction => intro s t hr; cases hr; rfl
  | readOnly => exact h

theorem checked_keepsAtomic {lead : List Prim} (h : KeepsAtomic lead) (count : Nat) :
    ∀ ps ∈ (Body.checked lead count).parts, KeepsAtomic ps :=
  forall_parts_checked
    ((leadOnce_keepsAtomic h _).append (WritesOnly.keepsAtomic (xs := [.attempts]) (by decide) (by decide)))
    (attemptOps_keepsAtomic h _ count) (retryOps_writes.keepsAtomic (by decide))

theorem commandBody_parts_keepsAtomic (cmd : Instr) : ∀ ps ∈ (commandBody cmd).parts, KeepsAtomic ps := by
  cases cmd with
  | ra => exact checked_keepsAtomic (lead_keepsAtomic _ _ (by decide)) _
  | rs => exact checked_keepsAtomic (lead_keepsAtomic _ _ (by decide)) _
  | ws p => exact forall_parts_straight (lead_keepsAtomic _ _ (by decide))
  | ct => exact forall_parts_straight (ctOps_eq_lead ▸ lead_keepsAtomic _ [] (by decide))
  | _ => exact forall_parts_straight (WritesOnly.keepsAtomic (xs := [.wire, .mode, .queue]) (by decide) (by decide))

/-- Every command leaves the atomic flag as it was (R20, R65). -/
theorem commandBody_atomic {cmd : Instr} {s t : State} (h : (commandBody cmd).run s = .next t) : t.atomic = s.atomic :=
  Body.run_keeps (P := fun u => u.atomic = s.atomic)
    (fun ps hps u v hu hv => (commandBody_parts_keepsAtomic cmd ps hps u v hv).trans hu) rfl h

/-! ### The frame of a command -/

/-- All a command can be: its body, then at most one record queued and a result (R79, R80). -/
theorem exec_next_eq {cmd : Instr} {s t : State} (h : exec cmd s = .next t) :
    ∃ u q r, (commandBody cmd).run s = .next u ∧ t = { u with queue := q, ret := r, seq := .idle } ∧
      (q = u.queue ∨ pushesResult cmd ∧ u.queue.length ≠ Config.queueCap ∧ ∃ bs, q = u.queue ++ [recordOf bs]) := by
  obtain ⟨u, hu, rfl⟩ := exec_next h
  obtain ⟨q, r, hf, hq⟩ := runFinish_result (commandResult cmd) u
  exact ⟨u, q, r, hu, hf, pushesResult_eq cmd ▸ hq⟩

/-- A command leaves every part but the queue alone that its body does not write. -/
theorem exec_same {cmd : Instr} {x : Part} (hx : x ∉ commandWrites cmd) (hq : x ≠ .queue) {s t : State}
    (h : exec cmd s = .next t) : x.Same s t := by
  obtain ⟨u, q, r, hu, rfl, -⟩ := exec_next_eq h
  have hsame := commandBody_same hx hu
  cases x with
  | queue => exact absurd rfl hq
  | _ => exact hsame

/-- What no command changes; it ends idle, and the trace only gains events (R22, R23, R27, R28). -/
theorem exec_frame {cmd : Instr} {s t : State} (h : exec cmd s = .next t) :
    t.lineOwned = s.lineOwned ∧ t.sessionOpen = s.sessionOpen ∧ t.host = s.host ∧ t.atomic = s.atomic ∧ t.seq = .idle ∧
      s.trace <+: t.trace := by
  obtain ⟨u, q, r, hu, rfl, -⟩ := exec_next_eq h
  obtain ⟨ho, hs, hh, ht⟩ := Body.run_frame hu
  have ha := commandBody_atomic hu
  exact ⟨ho, hs, hh, ha, rfl, ht⟩

/-- A command that neither queues a result nor flushes leaves the queue as it was (R25). -/
theorem exec_queue_same {cmd : Instr} (hf : cmd ≠ .flush) (hp : pushesResult cmd = false) {s t : State}
    (h : exec cmd s = .next t) : t.queue = s.queue := by
  obtain ⟨u, q, r, hu, rfl, rfl | ⟨hpush, -⟩⟩ := exec_next_eq h
  · have hx : .queue ∉ commandWrites cmd := by cases cmd <;> simp_all [commandWrites]
    have hsame := commandBody_same hx hu
    exact hsame
  · simp [hp] at hpush

/-- Only `ECRC` and `DCRC` write the mode bit (R21). -/
theorem exec_crcResend_same {cmd : Instr} (he : cmd ≠ .ecrc) (hd : cmd ≠ .dcrc) {s t : State} (h : exec cmd s = .next t) :
    t.crcResend = s.crcResend :=
  exec_same (x := .mode) (by cases cmd <;> simp_all [commandWrites]) (by decide) h

theorem buffer_not_written (cmd : Instr) : .buffer ∉ commandWrites cmd := by cases cmd <;> simp [commandWrites]

end Sys2Proof.Machine
end

section
/-! SUPPORT. The bounds of the datapath registers after a command (10_state.md R18), and the invariant without the sequencer
position, which holds at the start of a host call as well as between calls. -/

namespace Sys2Proof.Machine

/-! ### `tx` and `rx` -/

/-- A transaction sends no other list than its bytes `tx` (R56). -/
theorem setTx_mem_lead {tx bs : List Byte} {w : List Prim} (hw : WritesOnly [.wire] w)
    (h : .setTx bs ∈ resetOps ++ writeBitsOps tx ++ w) : bs = tx := by
  rcases List.mem_append.1 h with h | h
  · rcases List.mem_append.1 h with h | h
    · exact absurd h (by simp [resetOps])
    · exact setTx_mem_writeBitsOps h
  · exact absurd (hw _ h .send (by simp [Prim.writes])) (by decide)

/-- A checked read sends only what its lead-in sends. -/
theorem setTx_mem_checked {lead : List Prim} {count : Nat} {bs : List Byte} {ps : List Prim}
    (hps : ps ∈ (Body.checked lead count).parts) (h : .setTx bs ∈ ps) : .setTx bs ∈ lead := by
  have hread : .setTx bs ∉ readBitsOps count := fun hm =>
    absurd (readBitsOps_writes count _ hm .send (by simp [Prim.writes])) (by decide)
  simp only [Body.parts, List.mem_cons, List.not_mem_nil, or_false] at hps
  rcases hps with rfl | rfl | rfl
  · simp [leadOnce, Config.retryScope] at h
  · simpa [attemptOps, Config.retryScope, hread] using h
  · simp [retryOps] at h

/-- No command sends more than five bytes (R18, R50, R56). -/
theorem setTx_mem_commandBody {cmd : Instr} {ps : List Prim} {bs : List Byte} (hps : ps ∈ (commandBody cmd).parts)
    (h : .setTx bs ∈ ps) : bs.length ≤ 5 := by
  cases cmd with
  | ra => rw [setTx_mem_lead (by decide) (setTx_mem_checked hps h)]; decide
  | rs => rw [setTx_mem_lead (by decide) (setTx_mem_checked hps h)]; decide
  | ws p =>
    rw [List.mem_singleton.1 hps] at h
    rw [setTx_mem_lead (by decide) h]
    have hcut : (p.take Config.wsMaxPayload).length ≤ 3 := List.length_take_le _ _
    simp only [romWriteScratchpad, List.length_append, List.length_cons, List.length_nil]
    omega
  | ct =>
    rw [List.mem_singleton.1 hps, ctOps_eq_lead] at h
    rw [setTx_mem_lead (w := []) (by decide) h]; decide
  | _ => rw [List.mem_singleton.1 hps] at h; simp [resetOps] at h

theorem commandBody_tx_le {cmd : Instr} {s t : State} (hs : s.tx.length ≤ 5) (h : (commandBody cmd).run s = .next t) :
    t.tx.length ≤ 5 :=
  Body.run_keeps (P := fun u => u.tx.length ≤ 5)
    (fun _ hps _ _ hu hv => runPrims_tx_le hu (fun _ => setTx_mem_commandBody hps) hv) hs h

/-- An attempt ends with the read's `count` bytes in `rx`, under either scope (R73, R81). -/
theorem attemptOps_rx_length {scope : RetryScope} {lead : List Prim} {count : Nat} {s t : State}
    (h : runPrims (attemptOps scope lead count) s = .next t) : t.rx.length = count := by
  cases scope with
  | wholeTransaction =>
    obtain ⟨u, -, h⟩ := runPrims_append_next h
    exact readBitsOps_rx_length h
  | readOnly => exact readBitsOps_rx_length h

/-- `rx` keeps its bound in a sequence that does not write it. -/
theorem WritesOnly.rx_le {xs : List Part} {ps : List Prim} (hw : WritesOnly xs ps) (hx : .receive ∉ xs) (s t : State)
    (hs : s.rx.length ≤ 9) (h : runPrims ps s = .next t) : t.rx.length ≤ 9 := by
  obtain ⟨-, -, -, hrx, -⟩ := hw.same hx h
  rwa [hrx]

/-- A checked read of at most nine bytes leaves at most nine bytes in `rx` (R18). -/
theorem checked_rx_le {lead : List Prim} (hl : WritesOnly [.wire, .atomic, .send] lead) {count : Nat} (hc : count ≤ 9)
    {s t : State} (hs : s.rx.length ≤ 9) (h : (Body.checked lead count).run s = .next t) : t.rx.length ≤ 9 := by
  have honce : WritesOnly [.wire, .atomic, .send, .attempts] (leadOnce Config.retryScope lead ++ [.firstAttempt]) :=
    .append ((leadOnce_writes hl _).mono (by simp)) (by decide)
  refine Body.run_keeps (P := fun u => u.rx.length ≤ 9) (forall_parts_checked ?_ ?_ ?_) hs h
  · exact honce.rx_le (by decide)
  · exact fun u v _ hv => (attemptOps_rx_length hv).trans_le hc
  · exact retryOps_writes.rx_le (by decide)

theorem commandBody_rx_le {cmd : Instr} {s t : State} (hs : s.rx.length ≤ 9) (h : (commandBody cmd).run s = .next t) :
    t.rx.length ≤ 9 := by
  by_cases hx : .receive ∈ commandWrites cmd
  · cases cmd with
    | ra => exact checked_rx_le raLead_writes (by decide) hs h
    | rs => exact checked_rx_le rsLead_writes (by decide) hs h
    | _ => simp [commandWrites] at hx
  · obtain ⟨-, -, -, hrx, -⟩ := commandBody_same hx h
    rwa [hrx]

/-! ### The attempt counter -/

/-- The retry loop makes at most as many more attempts as it is allowed (R82). -/
theorem attemptLoop_attempt_le {body : List Prim} {xs : List Part} (hw : WritesOnly xs body) (hx : .attempts ∉ xs)
    {left : Nat} {s t : State} (h : attemptLoop body left s = .next t) : t.attempt ≤ s.attempt + left := by
  induction left generalizing s with
  | zero => exact le_of_eq (hw.same hx h)
  | succ left ih =>
    obtain ⟨u, hu, h⟩ := andThen_eq_next.1 h
    have hus : u.attempt = s.attempt := hw.same hx hu
    split at h
    · cases h; omega
    · obtain ⟨v, hv, h⟩ := andThen_eq_next.1 h
      have hvu : v.attempt = u.attempt + 1 := by
        obtain ⟨w, hw, hv⟩ := andThen_eq_next.1 hv
        obtain ⟨-, rfl⟩ := sleep_next hw
        cases hv; rfl
      have := ih h
      omega

theorem maxAttempts_bounds (s : State) : 1 ≤ maxAttempts s ∧ maxAttempts s ≤ 20 := by
  unfold maxAttempts; split <;> decide

theorem checked_attempt_le {lead : List Prim} (hl : WritesOnly [.wire, .atomic, .send] lead) {count : Nat} {s t : State}
    (h : (Body.checked lead count).run s = .next t) : t.attempt ≤ 20 := by
  obtain ⟨u, hu, h⟩ := checkedRead_next h
  have hu1 : u.attempt = 1 := by
    obtain ⟨v, -, hu⟩ := runPrims_append_next hu
    cases hu; rfl
  have hle := attemptLoop_attempt_le (attemptOps_writes hl _ count) (by decide) h
  have hmax := maxAttempts_bounds s
  omega

theorem commandBody_attempt_le {cmd : Instr} {s t : State} (hs : s.attempt ≤ 20) (h : (commandBody cmd).run s = .next t) :
    t.attempt ≤ 20 := by
  by_cases hx : .attempts ∈ commandWrites cmd
  · cases cmd with
    | ra => exact checked_attempt_le raLead_writes h
    | rs => exact checked_attempt_le rsLead_writes h
    | _ => simp [commandWrites] at hx
  · exact (show t.attempt = s.attempt from commandBody_same hx h).trans_le hs

/-! ### The queue -/

/-- A command's body leaves the queue as it was or empty (R25, R89). -/
theorem commandBody_queue {cmd : Instr} {s t : State} (h : (commandBody cmd).run s = .next t) :
    t.queue = s.queue ∨ t.queue = [] := by
  by_cases hx : .queue ∈ commandWrites cmd
  · cases cmd with
    | flush => cases h; exact .inr rfl
    | _ => simp [commandWrites] at hx
  · exact .inl (commandBody_same hx h)

/-- The queue's part of the invariant (R24, R101). -/
def QueueOk (q : List Record) : Prop := q.length ≤ 128 ∧ ∀ r ∈ q, r.wf = true

theorem QueueOk.push {q : List Record} (h : QueueOk q) (hq : q.length ≠ 128) (bs : List Byte) :
    QueueOk (q ++ [recordOf bs]) := by
  obtain ⟨hlen, hwf⟩ := h
  refine ⟨by simp; omega, fun r hr => ?_⟩
  rcases List.mem_append.1 hr with hr | hr
  · exact hwf r hr
  · rw [List.mem_singleton.1 hr]; exact recordOf_wf bs

theorem QueueOk.tail {q : List Record} (h : QueueOk q) : QueueOk q.tail :=
  ⟨by rw [List.length_tail]; exact (Nat.sub_le _ _).trans h.1, fun r hr => h.2 r (List.mem_of_mem_tail hr)⟩

/-! ### The invariant -/

/-- The last step of a command keeps the queue's part of the invariant, whether the record goes in or is lost (R80, R101). -/
theorem runFinish_result_queueOk {g : Option ResultForm} {s : State} (h : QueueOk s.queue) :
    QueueOk (runFinish (resultFinish g) s).queue := by
  obtain ⟨q, r, hf, rfl | ⟨-, hroom, bs, rfl⟩⟩ := runFinish_result g s
  · rwa [hf]
  · rw [hf]; exact h.push hroom bs

/-- The copy of a host write fills the buffer up to the new length and keeps the rest of the invariant (R26, R107). -/
theorem State.Inv.copied {s : State} (h : s.Inv) (bytes : List Byte) :
    ({ s with
      cb := cellsPut s.cb 0 (bytes.take Config.cmdBufCap)
      cbLen := (bytes.take Config.cmdBufCap).length } : State).Inv :=
  have hcap : (bytes.take Config.cmdBufCap).length ≤ 512 := List.length_take_le _ _
  { h with
    cbCanonical := cellsPut_wf _ _ _ (by simp) h.cbCanonical
    cbLenBound := hcap
    cbWritten := fun a ha => by
      have hfind := cellFind_cellsPut_inside (bytes.take Config.cmdBufCap) s.cb 0 a ha
      rw [Nat.zero_add] at hfind
      rw [hfind, List.getElem?_eq_getElem ha]
      rfl }

/-- A command run from a state that meets the invariant, but for the sequencer position, ends in one that meets it whole. -/
theorem exec_inv {cmd : Instr} {s t : State} (hs : ({ s with seq := .idle } : State).Inv) (h : exec cmd s = .next t) :
    t.Inv := by
  obtain ⟨u, hu, rfl⟩ := exec_next h
  obtain ⟨hcb, hlen⟩ := commandBody_same (buffer_not_written cmd) hu
  have hbody : QueueOk u.queue := by
    rcases commandBody_queue hu with hq | hq <;> rw [hq]
    · exact ⟨hs.queueBound, hs.records⟩
    · exact ⟨by simp, by simp⟩
  obtain ⟨hqueue, hrecords⟩ := runFinish_result_queueOk (g := commandResult cmd) hbody
  have hattempt := commandBody_attempt_le (s := s) hs.attemptBound hu
  have hrx := commandBody_rx_le (s := s) hs.rxBound hu
  have htx := commandBody_tx_le (s := s) hs.txBound hu
  obtain ⟨q, r, hf, -⟩ := runFinish_result (commandResult cmd) u
  rw [hf] at hqueue hrecords ⊢
  exact {
    idle := rfl
    atomicClear := (commandBody_atomic hu).trans hs.atomicClear
    queueBound := hqueue
    records := hrecords
    cbCanonical := hcb ▸ hs.cbCanonical
    cbLenBound := hlen ▸ hs.cbLenBound
    cbWritten := by
      show ∀ a, a < u.cbLen → (cellFind u.cb a).isSome = true
      rw [hcb, hlen]; exact hs.cbWritten
    attemptBound := hattempt
    rxBound := hrx
    txBound := htx }

/-! ### The host calls that run no command -/

/-- `open` changes the session flag at most, and ends the call (R104). -/
theorem hostOpen_eq (s : State) : ∃ b r, hostOpen s = { s with sessionOpen := b, ret := r, seq := .idle } := by
  unfold hostOpen
  split
  · exact ⟨s.sessionOpen, .error .sessionBusy, rfl⟩
  · exact ⟨true, .ok, rfl⟩

/-- `read` takes the oldest record at most, and ends the call (R108). -/
theorem hostRead_eq (k : Nat) (fails : Bool) (s : State) :
    ∃ r, hostRead k fails s = { s with queue := s.queue.tail, ret := r, seq := .idle } := by
  cases hq : s.queue with
  | nil => exact ⟨.empty, by simp [hostRead, popQueue, hq, returnWith]⟩
  | cons r q =>
    cases fails with
    | true => exact ⟨.error .copyFault, by simp [hostRead, popQueue, hq, raise, returnWith]⟩
    | false => exact ⟨_, by simp [hostRead, popQueue, hq, returnWith]; rfl⟩

/-- A whole host call keeps the invariant (R27). -/
theorem runCall_inv {c : HostCall} {s t : State} (hs : ({ s with seq := .idle } : State).Inv)
    (h : runCall c s = .next t) : t.Inv := by
  rcases runCall_next h with ⟨-, rfl⟩ | ⟨-, rfl⟩ | ⟨k, f, -, rfl⟩ | ⟨b, -, rfl⟩ | ⟨b, -, h⟩
  · obtain ⟨b, r, hopen⟩ := hostOpen_eq s
    rw [hopen]; exact { hs with }
  · exact { hs with }
  · obtain ⟨r, hread⟩ := hostRead_eq k f s
    obtain ⟨hqueue, hrecords⟩ := QueueOk.tail ⟨hs.queueBound, hs.records⟩
    rw [hread]; exact { hs with queueBound := hqueue, records := hrecords }
  · exact { hs with }
  · exact exec_inv (hs.copied b) h

/-! ### Settled -/

/-- Settles O9: an idle step is nothing, a teardown or a whole host call, and each keeps the invariant. -/
theorem stepKeepsTheInvariant : Obligations.StepKeepsTheInvariant := by
  intro s t hs h
  obtain ⟨-, ⟨-, rfl⟩ | ⟨rest, -, rfl⟩ | ⟨c, rest, -, -, -, h⟩⟩ := step_idle_next hs.idle h
  · exact hs
  · exact { hs with }
  · exact runCall_inv (s := { s with host := rest, seq := .busy c 0 }) { hs with idle := rfl } h

/-- Settles O8. -/
theorem resetMeetsTheInvariant : Obligations.ResetMeetsTheInvariant where
  idle := rfl
  atomicClear := rfl
  queueBound := Nat.zero_le _
  records := by simp [State.reset]
  cbCanonical := reset_cb_wf
  cbLenBound := Nat.zero_le _
  cbWritten := by simp [State.reset]
  attemptBound := Nat.zero_le _
  rxBound := Nat.zero_le _
  txBound := Nat.zero_le _

end Sys2Proof.Machine
end

section
/-! SUPPORT. The frame of every command, and what a step of the whole machine can change: the mode bit, the session flag and the
trace (10_state.md R18 to R28). -/

namespace Sys2Proof.Machine

/-- Settles O33: every clause is a part that the command's body does not write. -/
theorem commandFrame : Obligations.CommandFrame := by
  intro cmd s t h
  obtain ⟨ho, hs, hh, ha, hq, -⟩ := exec_frame h
  obtain ⟨hcb, hlen⟩ := exec_same (buffer_not_written cmd) (by decide) h
  refine ⟨hcb, hlen, hs, ho, hh, ha, hq, fun he hd => exec_crcResend_same he hd h, fun hf hp => exec_queue_same hf hp h,
    fun hcmd => ?_, fun hcmd hws => ?_, fun hcmd => ?_⟩
  · exact exec_same (x := .wire) (by cases cmd <;> simp_all [commandWrites]) (by decide) h
  · exact exec_same (x := .send) (by cases cmd <;> simp_all [commandWrites]) (by decide) h
  · have hreceive : .receive ∉ commandWrites cmd := by cases cmd <;> simp_all [commandWrites]
    have hattempts : .attempts ∉ commandWrites cmd := by cases cmd <;> simp_all [commandWrites]
    obtain ⟨hacc, hcrc, hok, hrx, hbit, hslave, hdraws⟩ := exec_same hreceive (by decide) h
    exact ⟨hacc, hcrc, hok, exec_same (x := .attempts) hattempts (by decide) h, hrx, hbit, hslave, hdraws⟩

/-! ### The mode bit -/

/-- A command that changes the mode bit is `ECRC`, which sets it, or `DCRC`, which clears it (R21, R87, R88). -/
theorem exec_crcResend_changed {cmd : Instr} {s t : State} (h : exec cmd s = .next t) (hne : t.crcResend ≠ s.crcResend) :
    (cmd = .ecrc ∧ t.crcResend = true) ∨ (cmd = .dcrc ∧ t.crcResend = false) := by
  by_cases he : cmd = .ecrc
  · subst he
    obtain ⟨u, q, r, hu, rfl, -⟩ := exec_next_eq h
    cases hu
    exact .inl ⟨rfl, rfl⟩
  · by_cases hd : cmd = .dcrc
    · subst hd
      obtain ⟨u, q, r, hu, rfl, -⟩ := exec_next_eq h
      cases hu
      exact .inr ⟨rfl, rfl⟩
    · exact absurd (exec_crcResend_same he hd h) hne

/-- Settles O47: of all an idle step can be, only a write that runs a command can change the mode bit. -/
theorem onlyModeCommandsChangeResend : Obligations.OnlyModeCommandsChangeResend := by
  intro s t hs h hne
  obtain ⟨-, ⟨-, rfl⟩ | ⟨rest, -, rfl⟩ | ⟨c, rest, hhost, -, -, h⟩⟩ := step_idle_next hs h
  · exact absurd rfl hne
  · exact absurd rfl hne
  · rcases runCall_next h with ⟨-, rfl⟩ | ⟨-, rfl⟩ | ⟨k, f, -, rfl⟩ | ⟨b, -, rfl⟩ | ⟨b, rfl, h⟩
    · obtain ⟨b, r, hopen⟩ := hostOpen_eq { s with host := rest, seq := .busy c 0 }
      exact absurd (by rw [hopen]) hne
    · exact absurd rfl hne
    · obtain ⟨r, hread⟩ := hostRead_eq k f { s with host := rest, seq := .busy c 0 }
      exact absurd (by rw [hread]) hne
    · exact absurd rfl hne
    · exact ⟨b, rest, hhost, exec_crcResend_changed h hne⟩

/-! ### The session flag -/

/-- Settles O49: a command, a read and a teardown leave the session flag alone. -/
theorem onlyOpenAndReleaseChangeSession : Obligations.OnlyOpenAndReleaseChangeSession := by
  intro s t hs h hne
  obtain ⟨-, ⟨-, rfl⟩ | ⟨rest, -, rfl⟩ | ⟨c, rest, hhost, -, -, h⟩⟩ := step_idle_next hs h
  · exact absurd rfl hne
  · exact absurd rfl hne
  · rcases runCall_next h with ⟨rfl, -⟩ | ⟨rfl, -⟩ | ⟨k, f, -, rfl⟩ | ⟨b, -, rfl⟩ | ⟨b, -, h⟩
    · exact ⟨rest, .inl hhost⟩
    · exact ⟨rest, .inr hhost⟩
    · obtain ⟨r, hread⟩ := hostRead_eq k f { s with host := rest, seq := .busy c 0 }
      exact absurd (by rw [hread]) hne
    · exact absurd rfl hne
    · obtain ⟨-, hsession, -⟩ := exec_frame h
      exact absurd hsession hne

/-! ### The trace -/

theorem runFinish_trace_grows (f : Finish) (s : State) : s.trace <+: (runFinish f s).trace := by
  obtain ⟨q, r, b, hf⟩ := runFinish_frame f s
  rw [hf]

theorem runCall_trace_grows {c : HostCall} {s t : State} (h : runCall c s = .next t) : s.trace <+: t.trace := by
  rcases runCall_next h with ⟨-, rfl⟩ | ⟨-, rfl⟩ | ⟨k, f, -, rfl⟩ | ⟨b, -, rfl⟩ | ⟨b, -, h⟩
  · exact runFinish_trace_grows .openSession s
  · exact runFinish_trace_grows .releaseSession s
  · exact runFinish_trace_grows (.read k f) s
  · exact List.prefix_refl _
  · obtain ⟨-, -, -, -, -, ht⟩ := exec_frame h
    exact ht

theorem microStep_trace_grows {c : HostCall} {k : Nat} {s t : State} (h : microStep c k s = .next t) : s.trace <+: t.trace := by
  unfold microStep at h
  split at h
  · cases h
  · obtain ⟨u, hu, h⟩ := andThen_eq_next.1 h
    obtain ⟨-, -, -, -, -, ht⟩ := runPrim_frame hu
    cases h; exact ht
  · split at h
    · cases h; exact List.prefix_refl _
    · obtain ⟨u, hu, h⟩ := andThen_eq_next.1 h
      obtain ⟨-, -, -, -, -, ht⟩ := runPrims_frame hu
      cases h; exact ht
  · cases h; exact runFinish_trace_grows _ s

/-- With an owned line, a step from BUSY(call, k) is the step of the call's code at `k` (R27). -/
theorem step_busy {c : HostCall} {k : Nat} {s : State} (ho : s.lineOwned = true) (hs : s.seq = .busy c k) :
    step s = microStep c k s := by
  simp [step, nextMove, ho, hs]

/-- Without an owned line there is no step (R23, R57). -/
theorem step_unowned {s : State} (h : s.lineOwned = false) : step s = .fault .noOperatingState := by
  simp [step, nextMove, h]

/-- Settles O48: an idle step is nothing, a teardown or a whole call, and a busy one is a step of the call's code. -/
theorem traceOnlyGrows : Obligations.TraceOnlyGrows := by
  intro s t h
  cases hs : s.seq with
  | idle =>
    obtain ⟨-, ⟨-, rfl⟩ | ⟨rest, -, rfl⟩ | ⟨c, rest, -, -, -, h⟩⟩ := step_idle_next hs h
    · exact List.prefix_refl _
    · exact List.prefix_refl _
    · have ht := runCall_trace_grows h
      exact ht
  | busy c k =>
    cases ho : s.lineOwned with
    | true => exact microStep_trace_grows (step_busy ho hs ▸ h)
    | false => rw [step_unowned ho] at h; cases h

end Sys2Proof.Machine
end

section
/-! SUPPORT. A host call run primitive by primitive, and run whole (10_state.md R27). The big step's parts are followed through the
call's code: a sequence, then the retry loop, then the last step. -/

namespace Sys2Proof.Machine

theorem core_run_zero (s : State) : core.run 0 s = .next s := rfl

theorem run_succ_of_next {M : Host.Core} {n : Nat} {s t : M.State} (h : M.step s = .next t) :
    M.run (n + 1) s = M.run n t := by simp [Host.Core.run, h]

theorem run_succ_of_fault {M : Host.Core} {n : Nat} {s : M.State} {e : M.Fault} (h : M.step s = .fault e) :
    M.run (n + 1) s = .fault e := by simp [Host.Core.run, h]

theorem run_succ_of_refused {M : Host.Core} {n : Nat} {s : M.State} {e : M.Refusal} (h : M.step s = .refused e) :
    M.run (n + 1) s = .refused e := by simp [Host.Core.run, h]

theorem core_run_succ (n : Nat) (s : State) : core.run (n + 1) s = andThen (step s) (core.run n) := by
  cases h : step s with
  | next t => exact run_succ_of_next (M := core) h
  | fault e => exact run_succ_of_fault (M := core) h
  | refused e => exact run_succ_of_refused (M := core) h

/-! ### No primitive step reads the sequencer position -/

/-- The state at another position of the sequencer. -/
def State.withSeq (q : SeqPos) (s : State) : State := { s with seq := q }

@[simp] theorem withSeq_seq (q : SeqPos) (s : State) : (s.withSeq q).seq = q := rfl
@[simp] theorem withSeq_lineOwned (q : SeqPos) (s : State) : (s.withSeq q).lineOwned = s.lineOwned := rfl
@[simp] theorem withSeq_withSeq (q r : SeqPos) (s : State) : (s.withSeq q).withSeq r = s.withSeq r := rfl

/-- An outcome with its next state at another position. -/
def outcomeAt (q : SeqPos) (o : StepResult) : StepResult := andThen o fun t => .next (t.withSeq q)

@[simp] theorem outcomeAt_next (q : SeqPos) (t : State) : outcomeAt q (.next t) = .next (t.withSeq q) := rfl
@[simp] theorem outcomeAt_fault (q : SeqPos) (e : Fault) : outcomeAt q (.fault e) = .fault e := rfl
@[simp] theorem outcomeAt_refused (q : SeqPos) (e : Refusal) : outcomeAt q (.refused e) = .refused e := rfl

theorem sample_withSeq (q : SeqPos) (s : State) : sample (s.withSeq q) = outcomeAt q (sample s) := by
  cases ho : s.lineOwned with
  | false => simp [sample, ho]
  | true =>
    have hlevel : lineLevel (s.withSeq q) = lineLevel s := rfl
    have hdraw : afterDraw (s.withSeq q) = (afterDraw s).withSeq q := by
      unfold afterDraw State.withSeq; cases s.lineMode <;> rfl
    rw [sample, if_pos (show (s.withSeq q).lineOwned = true from ho), hdraw, hlevel, sample, if_pos ho]
    rfl

theorem runPrim_withSeq (p : Prim) (q : SeqPos) (s : State) : runPrim p (s.withSeq q) = outcomeAt q (runPrim p s) := by
  cases p with
  | line o => cases h : s.lineOwned <;> simp [runPrim, line, h, State.withSeq, emit]
  | sleep ms => cases h : s.atomic <;> simp [runPrim, sleep, h, State.withSeq, emit]
  | atomicBegin => cases h : s.atomic <;> simp [runPrim, atomicBegin, h, State.withSeq, emit]
  | atomicEnd => cases h : s.atomic <;> simp [runPrim, atomicEnd, h, State.withSeq, emit]
  | sample => exact sample_withSeq q s
  | checkCrc => cases h : s.rx.getLast? <;> simp [runPrim, checkCrc, h, State.withSeq]
  | load bytes => simp only [runPrim, load_eq]; rfl
  | _ => rfl

theorem runPrims_withSeq (ps : List Prim) (q : SeqPos) :
    ∀ s, runPrims ps (s.withSeq q) = outcomeAt q (runPrims ps s) := by
  induction ps with
  | nil => intro s; rfl
  | cons p ps ih =>
    intro s
    rw [runPrims_cons, runPrims_cons, runPrim_withSeq, outcomeAt, outcomeAt, andThen_assoc, andThen_assoc]
    congr 1
    exact funext ih

/-- The last step of a call leaves the sequencer idle from any position. -/
theorem runFinish_withSeq (f : Finish) (q : SeqPos) (s : State) : runFinish f (s.withSeq q) = runFinish f s := by
  cases f with
  | push g =>
    have hrec : resultRecord g (s.withSeq q) = resultRecord g s := by cases g <;> rfl
    by_cases h : s.queue.length = Config.queueCap
    · rw [runFinish, runFinish, pushResult_full _ s h, pushResult_full _ (s.withSeq q) h]; rfl
    · rw [runFinish, runFinish, pushResult_room _ s h, pushResult_room _ (s.withSeq q) h, hrec]; rfl
  | openSession => cases h : s.sessionOpen <;> simp [runFinish, hostOpen, h, State.withSeq, raise, returnWith]
  | read k b => cases h : s.queue <;> cases b <;> simp [runFinish, hostRead, popQueue, h, State.withSeq, raise, returnWith]
  | _ => rfl

/-! ### Runs that stay in one call -/

/-- The micro steps from BUSY(c, k) stay in the call `c` until they end in the outcome `o`. -/
def RunsTo (c : HostCall) (k : Nat) (s : State) (o : StepResult) : Prop :=
  ∃ n, core.run (n + 1) (s.withSeq (.busy c k)) = o ∧
    ∀ m, m ≤ n → ∃ t j, core.run m (s.withSeq (.busy c k)) = .next t ∧ t.seq = .busy c j

section
variable {c : HostCall} {k : Nat} {s : State}

/-- The call ends in one step. -/
theorem RunsTo.last {o : StepResult} (h : step (s.withSeq (.busy c k)) = o) : RunsTo c k s o := by
  refine ⟨0, ?_, fun m hm => ⟨s.withSeq (.busy c k), k, ?_, rfl⟩⟩
  · rw [core_run_succ, h]; cases o <;> rfl
  · rw [Nat.le_zero.1 hm, core_run_zero]

/-- One step inside the call, then the rest. -/
theorem RunsTo.step {j : Nat} {u : State} {o : StepResult}
    (h : step (s.withSeq (.busy c k)) = .next (u.withSeq (.busy c j))) (hu : RunsTo c j u o) : RunsTo c k s o := by
  obtain ⟨n, hn, hstay⟩ := hu
  refine ⟨n + 1, by rw [core_run_succ, h]; exact hn, fun m hm => ?_⟩
  cases m with
  | zero => exact ⟨_, k, core_run_zero _, rfl⟩
  | succ m =>
    rw [core_run_succ, h]
    exact hstay m (by omega)

/-- One step that answers `o`, and the rest from each next state it can answer, are together the sequence of the two. -/
theorem RunsTo.andThen {j : Nat} {o : StepResult} {F : State → StepResult}
    (h : Machine.step (s.withSeq (.busy c k)) = outcomeAt (.busy c j) o) (hF : ∀ u, o = .next u → RunsTo c j u (F u)) :
    RunsTo c k s (andThen o F) := by
  cases o with
  | next u => exact .step h (hF u rfl)
  | fault e => exact .last h
  | refused e => exact .last h

/-! ### The steps of a call's code -/

/-- The call's code from position `k` on starts with `ops`. -/
def CodeAt (c : HostCall) (k : Nat) (ops : List MicroOp) : Prop := ops <+: (callCode c).drop k

theorem CodeAt.tail {op : MicroOp} {ops : List MicroOp} (h : CodeAt c k (op :: ops)) : CodeAt c (k + 1) ops := by
  obtain ⟨rest, h⟩ := h
  exact ⟨rest, by rw [← List.drop_drop, ← h]; rfl⟩

theorem CodeAt.getElem? {op : MicroOp} {ops : List MicroOp} (h : CodeAt c k (op :: ops)) : (callCode c)[k]? = some op := by
  obtain ⟨rest, h⟩ := h
  rw [← Nat.add_zero k, ← List.getElem?_drop, ← h]; rfl

theorem step_withSeq_busy (ho : s.lineOwned = true) :
    step (s.withSeq (.busy c k)) = microStep c k (s.withSeq (.busy c k)) := step_busy ho rfl

theorem step_prim {p : Prim} {ops : List MicroOp} (hc : CodeAt c k (.prim p :: ops)) (ho : s.lineOwned = true) :
    step (s.withSeq (.busy c k)) = outcomeAt (.busy c (k + 1)) (runPrim p s) := by
  rw [step_withSeq_busy ho, microStep, hc.getElem?]
  dsimp only
  rw [runPrim_withSeq]
  cases runPrim p s <;> rfl

theorem step_finish {f : Finish} {ops : List MicroOp} (hc : CodeAt c k (.finish f :: ops)) (ho : s.lineOwned = true) :
    step (s.withSeq (.busy c k)) = .next (runFinish f s) := by
  rw [step_withSeq_busy ho, microStep, hc.getElem?]
  dsimp only
  rw [runFinish_withSeq]

/-- The end of an attempt: on with the last attempt or a valid CRC (R82). -/
theorem step_retry_stop {back : Nat} {ops : List MicroOp} (hc : CodeAt c k (.retry back :: ops)) (ho : s.lineOwned = true)
    (h : s.attempt = maxAttempts s ∨ s.crcOk = true) :
    step (s.withSeq (.busy c k)) = .next (s.withSeq (.busy c (k + 1))) := by
  rw [step_withSeq_busy ho, microStep, hc.getElem?]
  exact if_pos h

/-- The end of an attempt: the sleep and the next number, then back to the attempt's first step (R82). -/
theorem step_retry_again {back : Nat} {ops : List MicroOp} (hc : CodeAt c k (.retry back :: ops)) (ho : s.lineOwned = true)
    (h : ¬(s.attempt = maxAttempts s ∨ s.crcOk = true)) :
    step (s.withSeq (.busy c k)) = outcomeAt (.busy c (k - back)) (runPrims retryOps s) := by
  rw [step_withSeq_busy ho, microStep, hc.getElem?]
  refine (if_neg h).trans ?_
  rw [runPrims_withSeq]
  cases runPrims retryOps s <;> rfl

/-! ### Following the big step through the code -/

/-- The big step from here on ends with the last step `f`. -/
def finishWith (f : Finish) (o : StepResult) : StepResult := andThen o fun t => .next (runFinish f t)

theorem runsTo_finish {f : Finish} {ops : List MicroOp} (hc : CodeAt c k (.finish f :: ops)) (ho : s.lineOwned = true) :
    RunsTo c k s (.next (runFinish f s)) := .last (step_finish hc ho)

/-- The code of a sequence runs the sequence, and then whatever follows it. -/
theorem runsTo_prims {F : State → StepResult} {ops : List MicroOp} {ps : List Prim}
    (hc : CodeAt c k (ps.map .prim ++ ops)) (ho : s.lineOwned = true)
    (hF : ∀ u, runPrims ps s = .next u → CodeAt c (k + ps.length) ops → RunsTo c (k + ps.length) u (F u)) :
    RunsTo c k s (andThen (runPrims ps s) F) := by
  induction ps generalizing k s with
  | nil => exact hF s rfl hc
  | cons p ps ih =>
    rw [runPrims_cons, andThen_assoc]
    refine .andThen (step_prim hc ho) fun u hu => ih hc.tail ((runPrim_frame hu).1.trans ho) fun v hv hops => ?_
    rw [Nat.add_assoc, Nat.add_comm 1] at hops ⊢
    exact hF v (by rw [runPrims_cons, hu]; exact hv) hops

/-- The sleep and the next number, between two attempts (R82). -/
theorem retryOps_next {s t : State} (h : runPrims retryOps s = .next t) :
    t.attempt = s.attempt + 1 ∧ t.crcResend = s.crcResend ∧ t.lineOwned = s.lineOwned := by
  obtain ⟨u, hu, h⟩ := andThen_eq_next.1 h
  obtain ⟨-, rfl⟩ := sleep_next hu
  cases h
  exact ⟨rfl, rfl, rfl⟩

theorem maxAttempts_congr {s t : State} (h : t.crcResend = s.crcResend) : maxAttempts t = maxAttempts s := by
  rw [maxAttempts, maxAttempts, h]

/-- An attempt leaves the line handle, the counter and the mode's number of attempts as they were. -/
theorem WritesOnly.attempt_next {xs : List Part} {ps : List Prim} (hw : WritesOnly xs ps) (ha : .attempts ∉ xs)
    (hm : .mode ∉ xs) {t : State} (h : runPrims ps s = .next t) :
    t.lineOwned = s.lineOwned ∧ t.attempt = s.attempt ∧ maxAttempts t = maxAttempts s :=
  ⟨(runPrims_frame h).1, hw.same ha h, maxAttempts_congr (hw.same hm h)⟩

theorem runsTo_retry_stop {back : Nat} {f : Finish} (hc : CodeAt c k [.retry back, .finish f]) (ho : s.lineOwned = true)
    (h : s.attempt = maxAttempts s ∨ s.crcOk = true) : RunsTo c k s (.next (runFinish f s)) :=
  .step (step_retry_stop hc ho h) (runsTo_finish hc.tail ho)

/-- The retry loop: `left` more attempts are allowed exactly when the counter is `left` short of the mode's number (R82). -/
theorem runsTo_loop {body : List Prim} {xs : List Part} {f : Finish} (hw : WritesOnly xs body) (ha : .attempts ∉ xs)
    (hm : .mode ∉ xs) (hc : CodeAt c k (body.map .prim ++ [.retry body.length, .finish f])) {left : Nat}
    (ho : s.lineOwned = true) (hleft : s.attempt + left = maxAttempts s) :
    RunsTo c k s (finishWith f (attemptLoop body left s)) := by
  induction left generalizing s with
  | zero =>
    rw [finishWith, attemptLoop]
    refine runsTo_prims hc ho fun t ht hops => ?_
    obtain ⟨hot, hat, hmt⟩ := hw.attempt_next ha hm ht
    exact runsTo_retry_stop hops (hot.trans ho) (.inl (by omega))
  | succ left ih =>
    rw [finishWith, attemptLoop, andThen_assoc]
    refine runsTo_prims hc ho fun t ht hops => ?_
    obtain ⟨hot, hat, hmt⟩ := hw.attempt_next ha hm ht
    rw [ho] at hot
    cases hcrc : t.crcOk with
    | true => exact runsTo_retry_stop hops hot (.inr hcrc)
    | false =>
      simp only [Bool.false_eq_true, if_false, andThen_assoc]
      have hagain := step_retry_again hops hot (by simp [hcrc]; omega)
      rw [Nat.add_sub_cancel] at hagain
      refine .andThen hagain fun u hu => ?_
      obtain ⟨hau, hmu, hou⟩ := retryOps_next hu
      exact ih (hou.trans hot) (by rw [maxAttempts_congr hmu]; omega)

/-- The code of a body and its last step. -/
def bodyCode : Body → Finish → List MicroOp
  | .straight ps, f => straightCode ps f
  | .checked lead count, f => checkedCode Config.retryScope lead count f

theorem commandCode_eq (cmd : Instr) : commandCode cmd = bodyCode (commandBody cmd) (resultFinish (commandResult cmd)) := by
  cases cmd <;> rfl

theorem runsTo_straight {ps : List Prim} {f : Finish} (hc : CodeAt c k (straightCode ps f)) (ho : s.lineOwned = true) :
    RunsTo c k s (finishWith f (runPrims ps s)) :=
  runsTo_prims hc ho fun _ ht hops => runsTo_finish hops ((runPrims_frame ht).1.trans ho)

/-- A checked read sets the counter to 1, so the loop starts with one attempt fewer left than the mode allows (R82). -/
theorem runsTo_checked {scope : RetryScope} {lead : List Prim} (hl : WritesOnly [.wire, .atomic, .send] lead) {count : Nat}
    {f : Finish} (hc : CodeAt c k (checkedCode scope lead count f)) (ho : s.lineOwned = true) :
    RunsTo c k s (finishWith f (checkedRead scope lead count s)) := by
  have hcode : checkedCode scope lead count f = (leadOnce scope lead ++ [Prim.firstAttempt]).map .prim ++
      ((attemptOps scope lead count).map .prim ++ [.retry (attemptOps scope lead count).length, .finish f]) := by
    simp [checkedCode]
  rw [finishWith, checkedRead, andThen_assoc]
  rw [hcode] at hc
  refine runsTo_prims hc ho fun t ht hops => ?_
  have honce : WritesOnly [.wire, .atomic, .send, .attempts] (leadOnce scope lead ++ [.firstAttempt]) :=
    .append ((leadOnce_writes hl scope).mono (by simp)) (by decide)
  have hone : t.attempt = 1 := by
    obtain ⟨u, -, ht⟩ := runPrims_append_next ht
    cases ht; rfl
  have hmax : maxAttempts t = maxAttempts s := maxAttempts_congr (honce.same (x := .mode) (by decide) ht)
  have hbounds := maxAttempts_bounds s
  exact runsTo_loop (attemptOps_writes hl scope count) (by decide) (by decide) hops ((runPrims_frame ht).1.trans ho)
    (by omega)

/-- A command's code ends in the command's meaning. -/
theorem runsTo_exec {cmd : Instr} (hc : CodeAt c k (commandCode cmd)) (ho : s.lineOwned = true) :
    RunsTo c k s (exec cmd s) := by
  rw [exec_eq]
  rw [commandCode_eq] at hc
  cases cmd with
  | ra => exact runsTo_checked raLead_writes hc ho
  | rs => exact runsTo_checked rsLead_writes hc ho
  | _ => exact runsTo_straight hc ho

/-- A call's code ends in what the call does as one step (R27). -/
theorem runsTo_runCall (ho : s.lineOwned = true) : RunsTo c 0 s (runCall c s) := by
  cases c with
  | openSession => exact runsTo_finish (f := .openSession) (ops := []) (List.prefix_refl _) ho
  | releaseSession => exact runsTo_finish (f := .releaseSession) (ops := []) (List.prefix_refl _) ho
  | read n fails => exact runsTo_finish (f := .read n fails) (ops := []) (List.prefix_refl _) ho
  | write bytes fails =>
    cases fails with
    | true => exact runsTo_finish (f := .error .copyFault) (ops := []) (List.prefix_refl _) ho
    | false =>
      have hcode : CodeAt (.write bytes false) 0 (.prim (.load bytes) :: commandCode (decode (bytes.take Config.cmdBufCap))) :=
        List.prefix_refl _
      have hload := step_prim hcode ho
      rw [runPrim, load_eq] at hload
      rw [runCall, hostWrite_copied]
      exact .step hload (runsTo_exec hcode.tail ho)

/-- An admitted call runs whole from BUSY(c, 0) (R27, R66, R106). -/
theorem startCall_admitted (ha : s.atomic = false) (hs : needsSession c = true → s.sessionOpen = true) :
    startCall c s = runCall c (s.withSeq (.busy c 0)) := by
  have hsession : ¬(needsSession c && !s.sessionOpen) = true := by simpa using hs
  rw [startCall, if_neg (by simp [ha]), if_neg hsession]
  rfl

end

/-- Settles O50, by following the big step through the code of the call. -/
theorem bigStepIsItsMicroSteps : Obligations.BigStepIsItsMicroSteps := by
  intro c s ho ha hs
  rw [startCall_admitted ha hs]
  exact runsTo_runCall (s := s.withSeq (.busy c 0)) ho

end Sys2Proof.Machine
end

section
/-! SUPPORT. The state after initialisation, the unowned line, the register view, the command buffer and the records
(10_state.md R23 to R32, 20_memory.md R34). -/

namespace Sys2Proof.Machine

/-- Settles O7. -/
theorem resetState : Obligations.ResetState :=
  ⟨rfl, rfl, rfl, rfl, rfl, rfl, rfl, rfl, rfl, rfl, rfl⟩

/-- Settles O11. -/
theorem unownedLineStops : Obligations.UnownedLineStops :=
  fun s h => ⟨step_unowned h, fun o => line_unowned o s h⟩

/-! ### The register view (R31) -/

theorem lineModeField_ne_reserved (m : LineMode) : lineModeField m ≠ 0b11 := by cases m <;> decide

theorem ctrlField_bits (s : State) :
    (ctrlField s).getLsbD 0 = s.crcResend ∧ (ctrlField s).getLsbD 1 = s.atomic := by
  rw [ctrlField]
  cases s.atomic <;> cases s.crcResend <;> decide

/-- Settles O51. -/
theorem registerView : Obligations.RegisterView := by
  refine ⟨rfl, rfl, rfl, fun s => ?_⟩
  obtain ⟨hresend, hatomic⟩ := ctrlField_bits s
  refine ⟨hresend, hatomic, by simp [sessField], lineModeField_ne_reserved _, fun hq => ?_, fun hlen => ?_⟩
  · rw [qstatField, BitVec.toNat_ofNat, Nat.mod_eq_of_lt (by omega)]
  · rw [cbLenField, BitVec.toNat_ofNat, Nat.mod_eq_of_lt (by omega)]

/-! ### The command buffer (R34) -/

theorem memRead_past {s : State} {a n : Nat} (h : s.cbLen < a + n) : memRead s a n = .refused .readPastLength :=
  if_neg (by omega)

theorem memRead_within {s : State} {a n : Nat} (h : a + n ≤ s.cbLen) : memRead s a n = .next (cellsGet s.cb a n) := if_pos h

theorem memWrite_within {a : Nat} {v : List Byte} {s : State} (h : a + v.length ≤ Config.cmdBufCap) :
    memWrite a v s = .next { s with cb := cellsPut s.cb a v } := if_pos h

theorem memWrite_past {a : Nat} {v : List Byte} {s : State} (h : Config.cmdBufCap < a + v.length) :
    memWrite a v s = .refused .writePastBuffer := if_neg (by omega)

/-- Settles O53. -/
theorem bufferReadsAndWrites : Obligations.BufferReadsAndWrites :=
  ⟨fun _ _ _ => memRead_past,
    fun s a n h => ⟨cellsGet s.cb a n, memRead_within h, cellsGet_length s.cb a n, cellsGet_getElem? s.cb a n⟩,
    fun s a v h => ⟨cellsPut s.cb a v, memWrite_within h, cellGet_cellsPut_inside v s.cb a,
      cellGet_cellsPut_outside v s.cb a⟩,
    fun _ _ _ => memWrite_past⟩

/-! ### Records (R24) -/

/-- Settles O54. -/
theorem recordHoldsItsBytes : Obligations.RecordHoldsItsBytes := fun bs h =>
  ⟨Nat.min_eq_left h, by rw [recordOf, List.take_of_length_le h], recordOf_wf bs⟩

end Sys2Proof.Machine
end

section
/-! SUPPORT. The ring buffer against the abstract queue (20_memory.md R35). -/

namespace Sys2Proof.Machine

/-- The ring's ranges, each named (R35). -/
theorem ring_wf_iff (r : Ring) : r.wf = true ↔ r.slots.length = 128 ∧ r.head < 128 ∧ r.count ≤ 128 := by
  simp [Ring.wf, and_assoc]

theorem ringReset_wf : ringReset.wf = true :=
  (ring_wf_iff _).2 ⟨List.length_replicate, Nat.zero_lt_succ _, Nat.zero_le _⟩

theorem ringPush_wf {r : Ring} (h : r.wf = true) (x : Record) : (ringPush x r).2.wf = true := by
  obtain ⟨hslots, hhead, hcount⟩ := (ring_wf_iff r).1 h
  rw [ringPush]
  split
  · exact h
  · next hroom => exact (ring_wf_iff _).2 ⟨by simpa using hslots, hhead, Nat.lt_of_le_of_ne hcount hroom⟩

theorem ringPop_wf {r : Ring} (h : r.wf = true) : (ringPop r).2.wf = true := by
  obtain ⟨hslots, -, hcount⟩ := (ring_wf_iff r).1 h
  rw [ringPop]
  split
  · exact h
  · exact (ring_wf_iff _).2 ⟨hslots, Nat.mod_lt _ (by decide), (Nat.sub_le _ _).trans hcount⟩

@[simp] theorem ringQueue_length (r : Ring) : (ringQueue r).length = r.count := by simp [ringQueue]

/-- Writing one slot changes what that slot holds and no other. -/
theorem ringSlot_set {r : Ring} {k : Nat} (hk : k < r.slots.length) (x : Record) (n i : Nat) :
    ringSlot { r with slots := r.slots.set k x, count := n } i = if i = k then x else ringSlot r i := by
  rw [ringSlot, List.getD_eq_getElem?_getD, List.getElem?_set]
  split
  · next hik => rw [if_pos hik.symm, Option.getD_some]
  · next hik => rw [if_neg (Ne.symm hik), ringSlot, List.getD_eq_getElem?_getD]

/-- A push with room goes in behind the records held: the slot it writes is none of theirs (R35). -/
theorem ringQueue_push {r : Ring} (h : r.wf = true) (hroom : r.count ≠ 128) (x : Record) :
    ringQueue { r with slots := r.slots.set ((r.head + r.count) % 128) x, count := r.count + 1 } = ringQueue r ++ [x] := by
  obtain ⟨hslots, -, hcount⟩ := (ring_wf_iff r).1 h
  have hk : (r.head + r.count) % 128 < r.slots.length := by omega
  have hold : ∀ j ∈ List.range r.count, (r.head + j) % 128 ≠ (r.head + r.count) % 128 := by
    simp only [List.mem_range]; omega
  rw [ringQueue, List.range_succ, List.map_append, List.map_singleton, ringSlot_set hk, if_pos rfl, ringQueue]
  congr 1
  refine List.map_congr_left fun j hj => ?_
  rw [ringSlot_set hk, if_neg (hold j hj)]

/-- A ring that holds a record holds the one at its head first, and a pop leaves the rest (R35). -/
theorem ringQueue_pop {r : Ring} (h : r.wf = true) {n : Nat} (hn : r.count = n + 1) :
    ringQueue r = ringSlot r r.head :: ringQueue { r with head := (r.head + 1) % 128, count := n } := by
  obtain ⟨-, hhead, -⟩ := (ring_wf_iff r).1 h
  have hnext : ∀ j, (r.head + (j + 1)) % 128 = ((r.head + 1) % 128 + j) % 128 := by omega
  rw [ringQueue, hn, List.range_succ_eq_map, List.map_cons, List.map_map, Nat.add_zero, Nat.mod_eq_of_lt hhead]
  congr 1
  refine List.map_congr_left fun j _ => ?_
  exact congrArg (ringSlot r) (hnext j)

theorem ringPush_refines {r : Ring} (h : r.wf = true) (x : Record) :
    ((ringPush x r).1, ringQueue (ringPush x r).2) = pushQueue x (ringQueue r) := by
  rw [ringPush, pushQueue, ringQueue_length]
  split
  · rfl
  · next hroom => exact congrArg (Prod.mk true) (ringQueue_push h hroom x)

theorem ringPop_refines {r : Ring} (h : r.wf = true) :
    ((ringPop r).1, ringQueue (ringPop r).2) = popQueue (ringQueue r) := by
  cases hn : r.count with
  | zero =>
    have hempty : ringQueue r = [] := List.eq_nil_of_length_eq_zero (by rw [ringQueue_length, hn])
    rw [ringPop, if_pos hn, hempty]; rfl
  | succ n => rw [ringPop, if_neg (by omega), ringQueue_pop h hn, hn]; rfl

/-- Settles O38: the ring simulates the abstract queue, push by push and pop by pop. -/
theorem ringRefinesQueue : Obligations.RingRefinesQueue :=
  ⟨ringReset_wf, rfl, fun _ h => ⟨fun x => ⟨ringPush_wf h x, ringPush_refines h x⟩, ringPop_wf h, ringPop_refines h⟩⟩

end Sys2Proof.Machine
end

section
/-! SUPPORT. The host's moves from the idle position, told forwards: which step an overlap and an admitted call are
(20_memory.md R41, R42; 45_host_interface.md R103). -/

namespace Sys2Proof.Machine

/-- An idle step with an owned line is the host's next move (R27, R103). -/
theorem step_idle_move {s : State} {e : HostEvent} {rest : List HostEvent} (ho : s.lineOwned = true) (hs : s.seq = .idle)
    (hh : s.host = e :: rest) : step s = hostMove e { s with host := rest } := by
  simp [step, nextMove, ho, hs, hh]

/-- An idle step whose next move is an admitted call is that call, run whole (R27, R66, R106). -/
theorem step_idle_call {s : State} {c : HostCall} {rest : List HostEvent} (ho : s.lineOwned = true) (hs : s.seq = .idle)
    (ha : s.atomic = false) (hopen : needsSession c = true → s.sessionOpen = true) (hh : s.host = .call c :: rest) :
    step s = runCall c { s with host := rest, seq := .busy c 0 } := by
  rw [step_idle_move ho hs hh]
  exact startCall_admitted (s := { s with host := rest }) ha hopen

/-! ### Overlapping calls (R42, R131) -/

/-- An overlap of two calls is its fault, whatever else holds (R42, R103). -/
theorem step_overlap {s : State} {a b : HostCall} {rest : List HostEvent} (ho : s.lineOwned = true) (hs : s.seq = .idle)
    (hh : s.host = .overlap a b :: rest) : step s = .fault (overlapFault a b) := step_idle_move ho hs hh

/-- An overlap that is neither two writes nor two reads is a call in flight (R103). -/
theorem overlapFault_other {a b : HostCall} (hw : ¬ ∃ x f y g, a = .write x f ∧ b = .write y g)
    (hr : ¬ ∃ x f y g, a = .read x f ∧ b = .read y g) : overlapFault a b = .callInFlight := by
  unfold overlapFault
  split
  · exact absurd ⟨_, _, _, _, rfl, rfl⟩ hw
  · exact absurd ⟨_, _, _, _, rfl, rfl⟩ hr
  · rfl

/-- Settles O44: an idle step takes the overlap first, and its fault depends on the two calls alone. -/
theorem overlapIsAFault : Obligations.OverlapIsAFault := fun _ _ ho hs =>
  ⟨fun _ _ _ _ hh => step_overlap ho hs hh, fun _ _ _ _ hh => step_overlap ho hs hh,
    fun _ _ hh hw hr => overlapFault_other hw hr ▸ step_overlap ho hs hh⟩

/-! ### A read after a write (R41, R127) -/

@[simp] theorem afterCopy_queue (bytes : List Byte) (fails : Bool) (rest : List HostEvent) (s : State) :
    (afterCopy bytes fails rest s).queue = s.queue := rfl

/-- The step of an admitted write is the meaning of its command, at the state after the copy (R79, R107). -/
theorem step_write_copied {s : State} {bytes : List Byte} {rest : List HostEvent} (ho : s.lineOwned = true)
    (hs : s.seq = .idle) (ha : s.atomic = false) (hopen : s.sessionOpen = true)
    (hh : s.host = .call (.write bytes false) :: rest) :
    step s = exec (decode (bytes.take 512)) (afterCopy bytes false rest s) := by
  rw [step_idle_call ho hs ha (fun _ => hopen) hh, runCall, hostWrite_copied, List.length_take, min_comm, afterCopy]

/-- A command that queues a result puts one record behind those held, when there is room (R79, R98). -/
theorem exec_pushes_record {cmd : Instr} (hp : pushesResult cmd = true) {s t : State} (hroom : s.queue.length ≠ 128)
    (h : exec cmd s = .next t) : ∃ r, t.queue = s.queue ++ [r] := by
  obtain ⟨u, hu, rfl⟩ := exec_next h
  have hqueue : u.queue = s.queue := commandBody_same (x := .queue) (by cases cmd <;> simp_all [commandWrites, pushesResult]) hu
  obtain ⟨g, hg⟩ := Option.isSome_iff_exists.1 (pushesResult_eq cmd ▸ hp)
  refine ⟨resultRecord g u, ?_⟩
  rw [hg, resultFinish, runFinish, pushResult_room _ u (hqueue ▸ hroom), hqueue]

/-- The step of an admitted read whose copy succeeds takes the oldest record and hands it over, cut to the capacity and to its
size (R108). -/
theorem step_read_oldest {s : State} {capacity : Nat} {rest : List HostEvent} {r : Record} {q : List Record}
    (ho : s.lineOwned = true) (hs : s.seq = .idle) (ha : s.atomic = false) (hopen : s.sessionOpen = true)
    (hh : s.host = .call (.read capacity false) :: rest) (hq : s.queue = r :: q) :
    step s = .next { s with host := rest, queue := q, ret := .data (r.data.take (min capacity r.size)) } := by
  rw [step_idle_call ho hs ha (fun _ => hopen) hh, runCall]
  simp [hostRead, popQueue, hq, returnWith, hs]

/-- Settles O46: the write leaves its record alone in the queue and the block ready for the read, which takes it. -/
theorem readAfterWriteSeesItsRecord : Obligations.ReadAfterWriteSeesItsRecord := by
  intro s t bytes capacity rest ho hs ha hopen hq hh hp h
  rw [step_write_copied ho hs ha hopen hh] at h
  obtain ⟨r, hr⟩ := exec_pushes_record hp (by simp [hq]) h
  have htq : t.queue = [r] := by simpa [hq] using hr
  obtain ⟨hto, htopen, hth, hta, hts, -⟩ := exec_frame h
  exact ⟨r, _, htq, step_read_oldest (hto.trans ho) hts (hta.trans ha) (htopen.trans hopen) hth htq, rfl, rfl⟩

end Sys2Proof.Machine
end

section
/-! SUPPORT. The decoder against the encoder: which token a decoded command starts with, and that a token is read as its command
whatever follows it (30_encoding.md R46 to R53). -/

namespace Sys2Proof

/-! ### Tokens (R47, R48) -/

theorem hasToken_iff_prefix {tok bs : List Byte} : hasToken tok bs = true ↔ tok <+: bs := List.isPrefixOf_iff_prefix

/-- A token matches by the buffer's length and its bytes, one for one (R48). -/
theorem hasToken_iff_getElem? (tok bs : List Byte) :
    hasToken tok bs = true ↔ tok.length ≤ bs.length ∧ ∀ k, k < tok.length → bs[k]? = tok[k]? := by
  rw [hasToken_iff_prefix]
  constructor
  · rintro ⟨rest, rfl⟩
    exact ⟨by simp, fun k hk => List.getElem?_append_left hk⟩
  · rintro ⟨-, h⟩
    exact List.prefix_iff_getElem?.2 fun k hk => (h k hk).trans (List.getElem?_eq_getElem hk)

theorem tokens_nodup : tokens.Nodup := by decide

theorem tokens_prefix_free : ∀ a ∈ tokens, ∀ b ∈ tokens, a <+: b → a = b := by decide

/-- At most one token starts a byte string: of two that do, one starts the other (R48). -/
theorem token_unique {a b bs : List Byte} (ha : a ∈ tokens) (hb : b ∈ tokens) (hab : hasToken a bs = true)
    (hbb : hasToken b bs = true) : a = b := by
  rcases List.prefix_or_prefix_of_prefix (hasToken_iff_prefix.1 hab) (hasToken_iff_prefix.1 hbb) with h | h
  · exact tokens_prefix_free a ha b hb h
  · exact (tokens_prefix_free b hb a ha h).symm

theorem tokens_pairwise_disjoint (bs : List Byte) :
    tokens.Pairwise fun a b => ¬(hasToken a bs = true ∧ hasToken b bs = true) :=
  tokens_nodup.imp_of_mem fun ha hb hne ⟨hab, hbb⟩ => hne (token_unique ha hb hab hbb)

/-! ### What the decoder returns (R49) -/

/-- The command is its token and nothing else: it takes no operand (R51). -/
def Instr.isPlain : Instr → Bool
  | .ws _ => false
  | .noMatch => false
  | _ => true

/-- The pattern that selects a command (R52); none selects `NOMATCH`. -/
def Instr.token : Instr → List Byte
  | .ws _ => tokWs
  | cmd => encode cmd

theorem Instr.token_eq_encode {cmd : Instr} (h : cmd.isPlain = true) : cmd.token = encode cmd := by
  cases cmd with
  | ws p => cases h
  | _ => rfl

/-- The decoder returns no command whose token is not there: each of its fourteen tests returns the command tested for (R49). -/
theorem hasToken_token_decode (bs : List Byte) : hasToken (decode bs).token bs = true := by
  unfold decode
  iterate 14 refine iteInduction (motive := fun cmd : Instr => hasToken cmd.token bs = true) id fun _ => ?_
  rfl

theorem Instr.token_mem_tokens {cmd : Instr} (h : cmd ≠ .noMatch) : cmd.token ∈ tokens := by
  cases cmd with
  | ws p => show tokWs ∈ tokens; decide
  | noMatch => exact absurd rfl h
  | _ => decide

/-- A byte string that starts with a token is a command (R49). -/
theorem decode_token_append_ne_noMatch {tok : List Byte} (h : tok ∈ tokens) (rest : List Byte) :
    decode (tok ++ rest) ≠ .noMatch := by
  fin_cases h <;> exact nofun

/-- `NOMATCH` is returned exactly when no token is there (R53). -/
theorem decode_eq_noMatch_iff {bs : List Byte} : decode bs = .noMatch ↔ ∀ tok ∈ tokens, hasToken tok bs = false := by
  constructor
  · intro h tok htok
    rw [Bool.eq_false_iff]
    intro hbs
    obtain ⟨rest, rfl⟩ := hasToken_iff_prefix.1 hbs
    exact decode_token_append_ne_noMatch htok rest h
  · intro h
    by_contra hm
    exact absurd (h _ (Instr.token_mem_tokens hm)) (by simp [hasToken_token_decode])

/-- A command without operand is read from its token, whatever follows it (R47). -/
theorem decode_encode_append {cmd : Instr} (h : cmd.isPlain = true) (rest : List Byte) :
    decode (encode cmd ++ rest) = cmd := by
  cases cmd with
  | ws p => cases h
  | noMatch => cases h
  | _ => rfl

/-- `WS` takes the next up to three bytes, raw (R50). -/
theorem decode_tokWs_append (q : List Byte) : decode (tokWs ++ q) = .ws (q.take 3) := rfl

/-- A command without operand is returned exactly when its token is there (R48, R49). -/
theorem decode_eq_iff_hasToken {cmd : Instr} (h : cmd.isPlain = true) {bs : List Byte} :
    decode bs = cmd ↔ hasToken (encode cmd) bs = true := by
  constructor
  · rintro rfl
    exact Instr.token_eq_encode h ▸ hasToken_token_decode bs
  · intro htok
    obtain ⟨rest, rfl⟩ := hasToken_iff_prefix.1 htok
    exact decode_encode_append h rest

/-- `WS` is returned exactly when its token is there, with the payload behind it (R49, R50). -/
theorem decode_eq_ws_iff {bs p : List Byte} : decode bs = .ws p ↔ hasToken tokWs bs = true ∧ p = (bs.drop 2).take 3 := by
  have hread : hasToken tokWs bs = true → decode bs = .ws ((bs.drop 2).take 3) := fun htok => by
    obtain ⟨q, rfl⟩ := hasToken_iff_prefix.1 htok
    exact decode_tokWs_append q
  constructor
  · intro h
    have htok : hasToken tokWs bs = true := by simpa [h, Instr.token] using hasToken_token_decode bs
    exact ⟨htok, Instr.ws.inj (h.symm.trans (hread htok))⟩
  · rintro ⟨htok, rfl⟩
    exact hread htok

/-! ### Settled -/

/-- Settles O1: a plain command by `decode_eq_iff_hasToken`, and the disjointness because no token starts another. -/
theorem decodeSelectsByToken : Obligations.DecodeSelectsByToken :=
  ⟨hasToken_iff_getElem?, tokens_pairwise_disjoint, fun _ =>
    ⟨decode_eq_iff_hasToken rfl, decode_eq_iff_hasToken rfl, decode_eq_iff_hasToken rfl, decode_eq_iff_hasToken rfl,
      decode_eq_iff_hasToken rfl, decode_eq_iff_hasToken rfl, decode_eq_iff_hasToken rfl, decode_eq_iff_hasToken rfl,
      decode_eq_iff_hasToken rfl, fun _ => decode_eq_ws_iff, decode_eq_iff_hasToken rfl, decode_eq_iff_hasToken rfl,
      decode_eq_iff_hasToken rfl, decode_eq_iff_hasToken rfl, decode_eq_noMatch_iff⟩⟩

/-- Every well-formed command is read back from its bytes (R46, R51). -/
theorem decode_encode {cmd : Instr} (h : cmd.wf = true) : decode (encode cmd) = cmd := by
  cases cmd with
  | ws p => exact (decode_tokWs_append p).trans (congrArg Instr.ws (List.take_of_length_le (of_decide_eq_true h)))
  | _ => rfl

/-- Trailing bytes change nothing but an unfilled `WS` payload (R47, R50). -/
theorem decode_encode_append_of_full {cmd : Instr} (hm : cmd ≠ .noMatch) (hfull : ∀ p, cmd = .ws p → p.length = 3)
    (rest : List Byte) : decode (encode cmd ++ rest) = cmd := by
  cases cmd with
  | ws p =>
    rw [encode, List.append_assoc, decode_tokWs_append, ← hfull p rfl, List.take_left]
  | noMatch => exact absurd rfl hm
  | _ => exact decode_encode_append rfl rest

/-- The payload the decoder cuts is within its bound (R50). -/
theorem decode_wf (bs : List Byte) : (decode bs).wf = true := by
  cases h : decode bs with
  | ws p =>
    obtain ⟨-, rfl⟩ := decode_eq_ws_iff.1 h
    exact decide_eq_true (List.length_take_le _ _)
  | _ => rfl

/-- The bytes of a matched command start with its encoding (R46, R47). -/
theorem encode_decode_prefix {bs : List Byte} (hm : decode bs ≠ .noMatch) : encode (decode bs) <+: bs := by
  cases h : decode bs with
  | ws p =>
    obtain ⟨htok, rfl⟩ := decode_eq_ws_iff.1 h
    obtain ⟨q, rfl⟩ := hasToken_iff_prefix.1 htok
    exact (List.prefix_append_right_inj tokWs).2 (List.take_prefix 3 q)
  | noMatch => exact absurd h hm
  | _ => exact hasToken_iff_prefix.1 ((decode_eq_iff_hasToken rfl).1 h)

/-- Settles O2, from the round trips in both directions. -/
theorem decodeEncodeRoundTrip : Obligations.DecodeEncodeRoundTrip :=
  ⟨fun _ => decode_encode, fun _ rest _ hm hfull => decode_encode_append_of_full hm hfull rest,
    fun bs => ⟨decode_wf bs, encode_decode_prefix⟩⟩

/-- Settles O3, by reading the six words. -/
theorem tableWordsDecode : Obligations.TableWordsDecode := ⟨rfl, rfl, rfl, rfl, rfl, rfl⟩

/-- Settles O4. -/
theorem wsPayloadIsRawBytes : Obligations.WsPayloadIsRawBytes :=
  ⟨fun q => ⟨decode_tokWs_append q, List.length_take⟩, decode_tokWs_append [0x0A]⟩

end Sys2Proof
end

section
/-! SUPPORT. Nothing the command buffer held before a step reaches anything but the buffer (30_encoding.md R48): no sequence
reads it, and a host write runs the command of the bytes it has just copied. -/

namespace Sys2Proof.Machine

/-- The state with another command buffer. -/
def State.withCb (k : Memory) (s : State) : State := { s with cb := k }

/-- Where the first outcome is a next state, the second is the same but for its command buffer. -/
def SameButBuffer (o o' : StepResult) : Prop := ∀ t, o = .next t → ∃ k, o' = .next (t.withCb k)

/-- What the command buffer holds before `f` reaches nothing but the buffer. -/
def BufferBlind (f : State → StepResult) : Prop := ∀ s k, SameButBuffer (f s) (f (s.withCb k))

/-! ### How buffer-blind operations are put together -/

theorem bufferBlind_next {f : State → State} (h : ∀ s k, f (s.withCb k) = (f s).withCb k) :
    BufferBlind fun s => .next (f s) := fun s k t ht => by
  cases ht
  exact ⟨k, congrArg _ (h s k)⟩

theorem bufferBlind_fault (e : Fault) : BufferBlind fun _ => .fault e := fun _ _ _ h => nomatch h

theorem bufferBlind_refused (e : Refusal) : BufferBlind fun _ => .refused e := fun _ _ _ h => nomatch h

theorem BufferBlind.andThen {f g : State → StepResult} (hf : BufferBlind f) (hg : BufferBlind g) :
    BufferBlind fun s => andThen (f s) g := fun s k t ht => by
  obtain ⟨u, hu, ht⟩ := andThen_eq_next.1 ht
  obtain ⟨j, hj⟩ := hf s k u hu
  obtain ⟨i, hi⟩ := hg u j t ht
  exact ⟨i, andThen_eq_next.2 ⟨_, hj, hi⟩⟩

theorem BufferBlind.ite {c : State → Prop} [DecidablePred c] {f g : State → StepResult}
    (hc : ∀ s k, c (s.withCb k) ↔ c s) (hf : BufferBlind f) (hg : BufferBlind g) :
    BufferBlind fun s => if c s then f s else g s := fun s k => by
  by_cases h : c s
  · simpa only [hc, h, if_true] using hf s k
  · simpa only [hc, h, if_false] using hg s k

/-! ### Sequences and commands -/

theorem lineLevel_withCb (s : State) (k : Memory) : lineLevel (s.withCb k) = lineLevel s := rfl

theorem afterDraw_withCb (s : State) (k : Memory) : afterDraw (s.withCb k) = (afterDraw s).withCb k := by
  unfold afterDraw State.withCb; cases s.lineMode <;> rfl

theorem bufferBlind_sample : BufferBlind sample :=
  .ite (fun _ _ => .rfl) (bufferBlind_next fun s k => by rw [lineLevel_withCb, afterDraw_withCb]; rfl) (bufferBlind_fault _)

theorem bufferBlind_checkCrc : BufferBlind checkCrc := fun s k t h => by
  obtain ⟨hrx, rfl⟩ := checkCrc_next h
  exact ⟨k, checkCrc_nonempty (s.withCb k) hrx⟩

theorem bufferBlind_load (bytes : List Byte) : BufferBlind (load bytes) := fun s k t h => by
  rw [load_eq] at h
  cases h
  exact ⟨_, load_eq bytes (s.withCb k)⟩

theorem bufferBlind_runPrim (p : Prim) : BufferBlind (runPrim p) := by
  cases p with
  | line o => exact .ite (fun _ _ => .rfl) (bufferBlind_next fun _ _ => rfl) (bufferBlind_fault _)
  | sleep ms => exact .ite (fun _ _ => .rfl) (bufferBlind_fault _) (bufferBlind_next fun _ _ => rfl)
  | atomicBegin => exact .ite (fun _ _ => .rfl) (bufferBlind_fault _) (bufferBlind_next fun _ _ => rfl)
  | atomicEnd => exact .ite (fun _ _ => .rfl) (bufferBlind_next fun _ _ => rfl) (bufferBlind_fault _)
  | sample => exact bufferBlind_sample
  | checkCrc => exact bufferBlind_checkCrc
  | load bytes => exact bufferBlind_load bytes
  | refuse e => exact bufferBlind_refused e
  | _ => exact bufferBlind_next fun _ _ => rfl

theorem bufferBlind_runPrims (ps : List Prim) : BufferBlind (runPrims ps) := by
  induction ps with
  | nil => exact bufferBlind_next fun _ _ => rfl
  | cons p ps ih => exact (bufferBlind_runPrim p).andThen ih

theorem bufferBlind_attemptLoop (body : List Prim) (left : Nat) : BufferBlind (attemptLoop body left) := by
  induction left with
  | zero => exact bufferBlind_runPrims body
  | succ left ih =>
    exact (bufferBlind_runPrims body).andThen
      (.ite (fun _ _ => .rfl) (bufferBlind_next fun _ _ => rfl) ((bufferBlind_runPrims retryOps).andThen ih))

theorem maxAttempts_withCb (s : State) (k : Memory) : maxAttempts (s.withCb k) = maxAttempts s := rfl

theorem bufferBlind_checkedRead (scope : RetryScope) (lead : List Prim) (count : Nat) :
    BufferBlind (checkedRead scope lead count) := fun s k => by
  rw [checkedRead, checkedRead, maxAttempts_withCb]
  exact (bufferBlind_runPrims _).andThen (bufferBlind_attemptLoop _ _) s k

theorem bufferBlind_run (b : Body) : BufferBlind b.run := by
  cases b with
  | straight ps => exact bufferBlind_runPrims ps
  | checked lead count =>
    exact bufferBlind_checkedRead _ lead count

theorem resultRecord_withCb (g : ResultForm) (s : State) (k : Memory) :
    resultRecord g (s.withCb k) = resultRecord g s := by cases g <;> rfl

theorem pushResult_withCb (r : Record) (s : State) (k : Memory) :
    pushResult r (s.withCb k) = (pushResult r s).withCb k := by
  by_cases h : s.queue.length = Config.queueCap
  · rw [pushResult_full r s h, pushResult_full r (s.withCb k) h]; rfl
  · rw [pushResult_room r s h, pushResult_room r (s.withCb k) h]; rfl

/-- The last step of a call leaves the buffer as it is and reads none of it. -/
theorem runFinish_withCb (f : Finish) (s : State) (k : Memory) : runFinish f (s.withCb k) = (runFinish f s).withCb k := by
  cases f with
  | push g => rw [runFinish, resultRecord_withCb, pushResult_withCb]; rfl
  | openSession => cases h : s.sessionOpen <;> simp [runFinish, hostOpen, h, State.withCb, raise, returnWith]
  | read n fails =>
    cases h : s.queue <;> cases fails <;> simp [runFinish, hostRead, popQueue, h, State.withCb, raise, returnWith]
  | _ => rfl

theorem bufferBlind_finish (f : Finish) : BufferBlind fun s => .next (runFinish f s) := bufferBlind_next (runFinish_withCb f)

theorem bufferBlind_exec (cmd : Instr) : BufferBlind (exec cmd) := by
  rw [funext (exec_eq cmd)]
  exact (bufferBlind_run _).andThen (bufferBlind_finish _)

/-! ### Steps -/

/-- A write decodes the bytes it was given, so the buffer of before reaches its command only as the buffer (R48, R107). -/
theorem bufferBlind_hostWrite (bytes : List Byte) : BufferBlind (hostWrite bytes false) := fun s k => by
  rw [hostWrite_copied, hostWrite_copied]
  exact bufferBlind_exec _ _ _

theorem bufferBlind_runCall (c : HostCall) : BufferBlind (runCall c) := by
  cases c with
  | openSession => exact bufferBlind_finish .openSession
  | releaseSession => exact bufferBlind_finish .releaseSession
  | read n fails => exact bufferBlind_finish (.read n fails)
  | write bytes fails =>
    cases fails with
    | true => exact bufferBlind_finish (.error .copyFault)
    | false => exact bufferBlind_hostWrite bytes

theorem bufferBlind_hostMove (e : HostEvent) : BufferBlind (hostMove e) := by
  cases e with
  | call c =>
    exact .ite (fun _ _ => .rfl) (bufferBlind_fault _) (.ite (fun _ _ => .rfl) (bufferBlind_fault _)
      fun s => bufferBlind_runCall c { s with seq := .busy c 0 })
  | overlap a b => exact bufferBlind_fault _
  | teardown => exact bufferBlind_next fun _ _ => rfl

theorem bufferBlind_microStep (c : HostCall) (i : Nat) : BufferBlind (microStep c i) := by
  unfold microStep
  cases (callCode c)[i]? with
  | none => exact bufferBlind_fault _
  | some op =>
    cases op with
    | prim p => exact (bufferBlind_runPrim p).andThen (bufferBlind_next fun _ _ => rfl)
    | retry back =>
      exact .ite (fun _ _ => .rfl) (bufferBlind_next fun _ _ => rfl)
        ((bufferBlind_runPrims retryOps).andThen (bufferBlind_next fun _ _ => rfl))
    | finish f => exact bufferBlind_finish f

/-- An idle step with no host move to take changes nothing (R27). -/
theorem step_idle_none {s : State} (ho : s.lineOwned = true) (hs : s.seq = .idle) (hh : s.host = []) : step s = .next s := by
  simp [step, nextMove, ho, hs, hh]

theorem bufferBlind_step : BufferBlind step := fun s k t h => by
  cases ho : s.lineOwned with
  | false => rw [step_unowned ho] at h; cases h
  | true =>
    cases hs : s.seq with
    | busy c i =>
      rw [step_busy ho hs] at h
      rw [step_busy (s := s.withCb k) ho hs]
      exact bufferBlind_microStep c i s k t h
    | idle =>
      cases hh : s.host with
      | nil =>
        rw [step_idle_none ho hs hh] at h
        cases h
        exact ⟨k, step_idle_none (s := s.withCb k) ho hs hh⟩
      | cons e rest =>
        rw [step_idle_move ho hs hh] at h
        rw [step_idle_move (s := s.withCb k) ho hs hh]
        exact bufferBlind_hostMove e { s with host := rest } k t h

/-- Settles O6: every operation a step is made of is blind to the buffer it finds. -/
theorem leftoverBytesNeverMatter : Obligations.LeftoverBytesNeverMatter :=
  fun s t m n h => bufferBlind_step { s with cb := m } n t h

end Sys2Proof.Machine
end

section
/-! SUPPORT. The line operations, and the atomic section told forwards: what each timing primitive does where a section is held
and where none is, and the call a held section turns away (40_line_and_timing.md R58 to R60, R64 to R66). -/

namespace Sys2Proof.Machine

/-- Settles O10: `line_owned` at each of the three operations. -/
theorem lineOperations : Obligations.LineOperations := fun s ho =>
  ⟨line_owned .driveLow s ho, line_owned .driveHigh s ho, line_owned .release s ho⟩

/-! ### The primitives of an atomic section (R64, R65) -/

theorem sleep_held (ms : Nat) {s : State} (ha : s.atomic = true) : sleep ms s = .fault .atomicViolation := if_pos ha

theorem sleep_free (ms : Nat) {s : State} (ha : s.atomic = false) :
    sleep ms s = .next { s with trace := s.trace ++ [.sleep ms] } := if_neg (by simp [ha])

theorem atomicBegin_held {s : State} (ha : s.atomic = true) : atomicBegin s = .fault .atomicViolation := if_pos ha

theorem atomicBegin_free {s : State} (ha : s.atomic = false) :
    atomicBegin s = .next { s with atomic := true, trace := s.trace ++ [.atomicBegin] } := if_neg (by simp [ha])

theorem atomicEnd_held {s : State} (ha : s.atomic = true) :
    atomicEnd s = .next { s with atomic := false, trace := s.trace ++ [.atomicEnd] } := if_pos ha

theorem atomicEnd_free {s : State} (ha : s.atomic = false) : atomicEnd s = .fault .atomicViolation := if_neg (by simp [ha])

/-! ### No host call inside a section (R66) -/

theorem startCall_held (c : HostCall) {s : State} (ha : s.atomic = true) : startCall c s = .fault .atomicViolation := if_pos ha

/-- An idle step whose next move is a call is turned away while a section is held, whatever the call (R66, entry 18). -/
theorem step_call_held {s : State} {c : HostCall} {rest : List HostEvent} (ha : s.atomic = true) (ho : s.lineOwned = true)
    (hs : s.seq = .idle) (hh : s.host = .call c :: rest) : step s = .fault .atomicViolation := by
  rw [step_idle_move ho hs hh]
  exact startCall_held c (s := { s with host := rest }) ha

/-- Settles O12: each primitive by its rule for a held and for a free section, and the call by `step_call_held`. -/
theorem atomicSection : Obligations.AtomicSection := fun _ =>
  ⟨fun ha => ⟨atomicBegin_held ha, fun ms => sleep_held ms ha, atomicEnd_held ha,
      fun _ _ ho hs hh => step_call_held ha ho hs hh⟩,
    fun ha => ⟨atomicEnd_free ha, fun ms => sleep_free ms ha, atomicBegin_free ha⟩⟩

end Sys2Proof.Machine
end

section
/-! SUPPORT. The bus reset and the written bytes: sequences that end with the line released and add only their events
(41_bit_transceiver.md R68, R70, R71). -/

namespace Sys2Proof.Machine

/-- Settles O13: each line operation by `line_owned`, the two delays between them. -/
theorem resetSequence : Obligations.ResetSequence := fun s ho => by
  simp [resetOps, runPrims_cons, runPrim, line_owned, delay, emit, ho, LineOp.mode, LineOp.event]

/-! ### Sequences that send -/

/-- The state with the line released and the events `ev` in the trace. -/
def State.sent (s : State) (ev : List Event) : State := { s with lineMode := .input, trace := s.trace ++ ev }

theorem State.sent_sent (s : State) (ev ew : List Event) : (s.sent ev).sent ew = s.sent (ev ++ ew) := by simp [State.sent]

theorem State.delay_sent (s : State) (ev : List Event) (us : Nat) : delay us (s.sent ev) = s.sent (ev ++ [.delay us]) := by
  simp [State.sent, delay, emit]

/-- Begun outside an atomic section, the sequence releases the line, adds `ev` to the trace and changes nothing else. -/
def Sends (ps : List Prim) (ev : List Event) : Prop :=
  ∀ s : State, s.lineOwned = true → s.atomic = false → runPrims ps s = .next (s.sent ev)

theorem Sends.append {ps qs : List Prim} {ev ew : List Event} (hp : Sends ps ev) (hq : Sends qs ew) :
    Sends (ps ++ qs) (ev ++ ew) := fun s ho ha => by
  rw [runPrims_append, hp s ho ha, andThen_next, hq (s.sent ev) ho ha, State.sent_sent]

theorem Sends.append_delay {ps : List Prim} {ev : List Event} (hp : Sends ps ev) (us : Nat) :
    Sends (ps ++ [.delay us]) (ev ++ [.delay us]) := fun s ho ha => by
  rw [runPrims_append, hp s ho ha, andThen_next, runPrims_cons, runPrim, State.delay_sent]
  rfl

/-- One sequence after another, for a first element and those that follow it. -/
theorem Sends.flatMap {α : Type} {f : α → List Prim} {g : α → List Event} (h : ∀ a, Sends (f a) (g a)) (a : α) (as : List α) :
    Sends ((a :: as).flatMap f) ((a :: as).flatMap g) := by
  induction as generalizing a with
  | nil => simpa using h a
  | cons b as ih => exact (h a).append (ih b)

theorem sends_writeSlot (b : Bool) : Sends (writeSlotOps b) (writeSlotEvents b) := runPrims_writeSlot b

theorem wireBits_eq (b : Byte) : wireBits b = [b.getLsbD 0, b.getLsbD 1, b.getLsbD 2, b.getLsbD 3, b.getLsbD 4, b.getLsbD 5,
    b.getLsbD 6, b.getLsbD 7] := rfl

/-- One byte: the slots of its bits in wire order, then the gap (R71). -/
theorem sends_writeByte (b : Byte) : Sends (writeByteOps b) ((wireBits b).flatMap writeSlotEvents ++ [.delay 30]) := by
  rw [writeByteOps, wireBits_eq]
  exact (Sends.flatMap sends_writeSlot _ _).append_delay Config.tByteGap

/-- The events of a byte list, through the bits in wire order (R36). -/
theorem writeEvents_eq (bs : List Byte) :
    writeEvents bs = bs.flatMap fun b => (wireBits b).flatMap writeSlotEvents ++ [.delay 30] := by
  simp only [writeEvents, wireBits_eq]

/-- `writeBits(tx)`: `tx` is set, then every byte is sent (R71). -/
theorem runPrims_writeBits {s : State} {tx : List Byte} (ho : s.lineOwned = true) (ha : s.atomic = false) (htx : tx ≠ []) :
    runPrims (writeBitsOps tx) s = .next ({ s with tx := tx }.sent (writeEvents tx)) := by
  cases tx with
  | nil => exact absurd rfl htx
  | cons b bs =>
    have hbytes := Sends.flatMap sends_writeByte b bs
    rw [writeBitsOps, runPrims_cons, runPrim, andThen_next, hbytes { s with tx := b :: bs } ho ha, writeEvents_eq]

/-! ### How many events a byte takes (R71) -/

@[simp] theorem wireBits_length (b : Byte) : (wireBits b).length = 8 := by simp [wireBits]

@[simp] theorem writeSlotEvents_length (b : Bool) : (writeSlotEvents b).length = 6 := by cases b <;> rfl

theorem writeEvents_length (bs : List Byte) : (writeEvents bs).length = 49 * bs.length := by
  simp [writeEvents_eq, List.length_flatMap, Nat.mul_comm]

/-- Settles O14: a byte list is sent slot after slot (`Sends.flatMap`), 8 slots of 6 events and a gap for each byte. -/
theorem writeBitsSendsLsbFirst : Obligations.WriteBitsSendsLsbFirst :=
  ⟨fun _ _ ho ha htx => runPrims_writeBits ho ha htx, writeEvents_length, fun _ => rfl⟩

end Sys2Proof.Machine
end

section
/-! SUPPORT. Reading: a list of bits in wire order against its byte, and the state after a number of read slots, composed slot by
slot and byte by byte (20_memory.md R36; 41_bit_transceiver.md R72 to R74). -/

namespace Sys2Proof.Machine

/-! ### Bits in wire order and their byte (R36, R73) -/

/-- Bit `i` of the number is bit `i` of the list (R36). -/
theorem testBit_bitsValue (bs : List Bool) (i : Nat) : (bitsValue bs).testBit i = bs[i]?.getD false := by
  induction bs generalizing i with
  | nil => simp [bitsValue]
  | cons b bs ih =>
    cases i with
    | zero => cases b <;> simp [bitsValue, Nat.testBit_zero, Nat.add_mod]
    | succ i =>
      have hhalf : (b.toNat + 2 * bitsValue bs) / 2 = bitsValue bs := by have := b.toNat_lt; omega
      rw [bitsValue, Nat.testBit_succ, hhalf, ih, List.getElem?_cons_succ]

/-- The byte whose bit 0 is the first bit of the list (R36). -/
def byteOf (bs : List Bool) : Byte := BitVec.ofNat 8 (bitsValue bs)

theorem getLsbD_byteOf (bs : List Bool) {i : Nat} (hi : i < 8) : (byteOf bs).getLsbD i = bs[i]?.getD false := by
  rw [byteOf, BitVec.getLsbD_ofNat, testBit_bitsValue, decide_eq_true hi, Bool.true_and]

/-- A byte is the byte of its bits in wire order. -/
theorem byteOf_wireBits (b : Byte) : byteOf (wireBits b) = b :=
  BitVec.eq_of_getLsbD_eq fun i hi => by rw [getLsbD_byteOf _ hi]; simp [wireBits, hi]

theorem getLsbD_bitAt (b : Bool) (i : Nat) {k : Nat} (hk : k < 8) : (bitAt b i).getLsbD k = (decide (k = i) && b) := by
  cases b with
  | false => simp [bitAt]
  | true =>
    have hpow : bitAt true i = BitVec.twoPow 8 i := rfl
    rw [hpow, BitVec.getLsbD_twoPow]
    by_cases h : k = i
    · simp [← h, hk]
    · simp [h, Ne.symm h]

/-- `acc` after the bits `f 0`, …, `f (n - 1)` have been put into it, from the value `a` (R73). -/
def shiftedIn (f : Nat → Bool) (a : Byte) (n : Nat) : Byte := (List.range n).foldl (fun acc i => acc ||| bitAt (f i) i) a

theorem shiftedIn_succ (f : Nat → Bool) (a : Byte) (n : Nat) :
    shiftedIn f a (n + 1) = shiftedIn f a n ||| bitAt (f n) n := by
  simp [shiftedIn, List.range_succ]

theorem getLsbD_shiftedIn (f : Nat → Bool) (n : Nat) {k : Nat} (hk : k < 8) :
    (shiftedIn f 0 n).getLsbD k = (decide (k < n) && f k) := by
  induction n with
  | zero => simp [shiftedIn]
  | succ n ih =>
    have hlt (h : k ≠ n) : k < n + 1 ↔ k < n := by omega
    rw [shiftedIn_succ, BitVec.getLsbD_or, ih, getLsbD_bitAt _ _ hk]
    by_cases h : k = n
    · simp [h]
    · simp [h, hlt h]

/-! ### The slave's answers -/

@[simp] theorem answers_length (s : State) (off n : Nat) : (answers s off n).length = n := by simp [answers]

theorem answers_add (s : State) (off n m : Nat) : answers s off (n + m) = answers s off n ++ answers s (off + n) m := by
  simp [answers, List.range_add, Nat.add_assoc]

/-- Eight answers put into `acc` one by one are their byte (R73). -/
theorem shiftedIn_answers (s : State) : shiftedIn (slaveAnswer s) 0 8 = byteOf (answers s 0 8) :=
  BitVec.eq_of_getLsbD_eq fun i hi => by
    rw [getLsbD_shiftedIn _ _ hi, getLsbD_byteOf _ hi]
    simp [answers, hi]

@[simp] theorem answerBytes_zero (s : State) (off : Nat) : answerBytes s off 0 = [] := rfl

theorem answerBytes_succ (s : State) (off n : Nat) :
    answerBytes s off (n + 1) = answerBytes s off n ++ [byteOf (answers s (off + 8 * n) 8)] := by
  simp [answerBytes, byteOf, List.range_succ]

@[simp] theorem answerBytes_length (s : State) (off n : Nat) : (answerBytes s off n).length = n := by simp [answerBytes]

@[simp] theorem readSlotEvents_length (b : Bool) : (readSlotEvents b).length = 6 := rfl

theorem readEvents_length (s : State) (off n : Nat) : (readEvents s off n).length = 1 + 48 * n + 1 := by
  have hslots : ((answers s off (8 * n)).flatMap readSlotEvents).length = 8 * n * 6 := by simp [List.length_flatMap]
  rw [readEvents, List.length_append, List.length_cons, hslots, List.length_singleton]
  omega

/-! ### The state after read slots -/

/-- The state after `n` read slots, with `acc` and `rx` given: the line released, the slave's next `n` answers drawn and in the
trace (R72). -/
def State.afterSlots (s : State) (n : Nat) (acc : Byte) (rx : List Byte) : State :=
  { s with
    lineMode := .input
    acc := acc
    rx := rx
    slotBit := slaveAnswer s (n - 1)
    slave := s.slave.drop n
    draws := s.draws + n
    trace := s.trace ++ (answers s 0 n).flatMap readSlotEvents }

section
variable (s : State) (n : Nat) (acc : Byte) (rx : List Byte)

theorem slaveAnswer_afterSlots (k : Nat) : slaveAnswer (s.afterSlots n acc rx) k = slaveAnswer s (n + k) :=
  slaveAnswer_drop s _ n k rfl rfl

theorem answers_afterSlots (off m : Nat) : answers (s.afterSlots n acc rx) off m = answers s (n + off) m := by
  simp [answers, slaveAnswer_afterSlots, Nat.add_assoc]

/-- Read slots after read slots. -/
theorem State.afterSlots_afterSlots (m : Nat) (acc' : Byte) (rx' : List Byte) :
    (s.afterSlots n acc rx).afterSlots (m + 1) acc' rx' = s.afterSlots (n + (m + 1)) acc' rx' := by
  rw [State.afterSlots, slaveAnswer_afterSlots, answers_afterSlots]
  simp [State.afterSlots, answers_add, Nat.add_assoc]

end

/-! ### Slots and bytes -/

theorem runPrims_readBit_afterSlots (i : Nat) {s : State} (ho : s.lineOwned = true) :
    runPrims (readBitOps i) s = .next (s.afterSlots 1 (s.acc ||| bitAt (slaveAnswer s 0) i) s.rx) := by
  rw [runPrims_readBit i s ho]
  simp [State.afterSlots, answers]

theorem runPrims_readSlots (n : Nat) {s : State} (ho : s.lineOwned = true) :
    runPrims ((List.range (n + 1)).flatMap readBitOps) s =
      .next (s.afterSlots (n + 1) (shiftedIn (slaveAnswer s) s.acc (n + 1)) s.rx) := by
  induction n with
  | zero => simpa [shiftedIn] using runPrims_readBit_afterSlots 0 ho
  | succ n ih =>
    rw [List.range_succ, List.flatMap_append, runPrims_append, ih, andThen_next, List.flatMap_singleton,
      runPrims_readBit_afterSlots (n + 1) (s := s.afterSlots _ _ _) ho, slaveAnswer_afterSlots, State.afterSlots_afterSlots,
      shiftedIn_succ (n := n + 1)]
    rfl

/-- One read byte: eight answers, first sample bit 0, stored last in `rx` (R73). -/
theorem runPrims_readByte {s : State} (ho : s.lineOwned = true) :
    runPrims readByteOps s =
      .next (s.afterSlots 8 (byteOf (answers s 0 8)) (s.rx ++ [byteOf (answers s 0 8)])) := by
  rw [readByteOps, List.cons_append, runPrims_cons, runPrim, andThen_next, runPrims_append,
    runPrims_readSlots 7 (s := { s with acc := 0 }) ho, andThen_next, ← shiftedIn_answers]
  rfl

theorem runPrims_readBytes (n : Nat) {s : State} (ho : s.lineOwned = true) :
    runPrims (List.replicate (n + 1) readByteOps).flatten s =
      .next (s.afterSlots (8 * (n + 1)) ((answerBytes s 0 (n + 1)).getLastD 0) (s.rx ++ answerBytes s 0 (n + 1))) := by
  induction n with
  | zero => simpa [answerBytes_succ] using runPrims_readByte ho
  | succ n ih =>
    rw [List.replicate_succ', List.flatten_append, runPrims_append, ih, andThen_next, List.flatten_singleton,
      runPrims_readByte (s := s.afterSlots _ _ _) ho, answers_afterSlots, State.afterSlots_afterSlots]
    simp [State.afterSlots, answerBytes_succ _ _ (n + 1), Nat.mul_add]

/-! ### Whole reads -/

/-- The state once a read has opened its atomic section and cleared `rx` (R73). -/
def State.reading (s : State) : State := { s with atomic := true, rx := [], trace := s.trace ++ [.atomicBegin] }

@[simp] theorem slaveAnswer_reading (s : State) (k : Nat) : slaveAnswer s.reading k = slaveAnswer s k := rfl

@[simp] theorem answers_reading (s : State) (off n : Nat) : answers s.reading off n = answers s off n := rfl

@[simp] theorem answerBytes_reading (s : State) (off n : Nat) : answerBytes s.reading off n = answerBytes s off n := rfl

theorem runPrims_beginRead {s : State} (ha : s.atomic = false) :
    runPrims [.atomicBegin, .clearRx] s = .next s.reading := by
  rw [runPrims_cons, runPrim, atomicBegin_free ha]
  rfl

theorem runPrims_endRead {s : State} (ha : s.atomic = true) (hne : s.rx ≠ []) :
    runPrims [.atomicEnd, .checkCrc] s = .next { s with
      atomic := false
      trace := s.trace ++ [.atomicEnd]
      crc := crc8 s.rx.dropLast
      crcOk := crcMatches s.rx } := by
  simp [runPrims_cons, runPrim, atomicEnd_held ha, checkCrc_nonempty, hne]

/-- `readBits(n)`: the section is opened, `n` bytes are read in it, it is closed and the CRC is checked (R73). -/
theorem runPrims_readBits {n : Nat} {s : State} (ho : s.lineOwned = true) (ha : s.atomic = false) (hn : 1 ≤ n) :
    runPrims (readBitsOps n) s = .next { s with
      lineMode := .input
      rx := answerBytes s 0 n
      slotBit := slaveAnswer s (8 * n - 1)
      acc := (answerBytes s 0 n).getLastD 0
      crc := crc8 (answerBytes s 0 n).dropLast
      crcOk := crcMatches (answerBytes s 0 n)
      slave := s.slave.drop (8 * n)
      draws := s.draws + 8 * n
      trace := s.trace ++ readEvents s 0 n } := by
  obtain ⟨n, rfl⟩ := Nat.exists_eq_add_of_le' hn
  have hne : answerBytes s 0 (n + 1) ≠ [] := List.ne_nil_of_length_eq_add_one (answerBytes_length s 0 (n + 1))
  rw [readBitsOps, runPrims_append, runPrims_append, runPrims_beginRead ha, andThen_next,
    runPrims_readBytes n (s := s.reading) ho, andThen_next, runPrims_endRead rfl hne]
  simp only [State.afterSlots, slaveAnswer_reading, answers_reading, answerBytes_reading]
  simp [State.reading, readEvents, ha]

theorem crcMatches_eq_decide {rx : List Byte} (h : rx ≠ []) :
    crcMatches rx = decide (crc8 rx.dropLast = rx.getLastD 0) := by
  rw [crcMatches, List.getLastD_eq_getLast?, List.getLast?_eq_getLast_of_ne_nil h]
  rfl

/-- Settles O15: the read is `runPrims_readBits`, with the CRC check as the equality of R77. -/
theorem readBitsAssemblesAnswers : Obligations.ReadBitsAssemblesAnswers := by
  refine ⟨fun s count ho ha hc => ?_, fun s count => ⟨answerBytes_length s 0 count, readEvents_length s 0 count⟩, fun _ => rfl⟩
  have hne : answerBytes s 0 count ≠ [] := List.ne_nil_of_length_pos (by rwa [answerBytes_length])
  rw [runPrims_readBits ho ha hc, crcMatches_eq_decide hne]

/-! ### The echo (R74) -/

theorem flatMap_wireBits_length (bs : List Byte) : (bs.flatMap wireBits).length = 8 * bs.length := by
  simp [List.length_flatMap, Nat.mul_comm]

/-- Where the slave's coming answers begin with `bs`, the reads get `bs`. -/
theorem answers_of_slave {s : State} {off : Nat} {bs rest : List Bool} (h : s.slave.drop off = bs ++ rest) :
    answers s off bs.length = bs := by
  refine List.ext_getElem (by simp) fun k hk hk' => ?_
  have hget : s.slave[off + k]? = some bs[k] := by rw [← List.getElem?_drop, h, List.getElem?_append_left hk']; simp
  simp [answers, slaveAnswer, hget]

/-- A slave that answers the bits of `tx` in wire order is read as `tx` (R74). -/
theorem answerBytes_echo {s : State} {tx : List Byte} {rest : List Bool} (h : s.slave = tx.flatMap wireBits ++ rest) :
    answerBytes s 0 tx.length = tx := by
  induction tx using List.reverseRecOn generalizing rest with
  | nil => rfl
  | append_singleton tx b ih =>
    rw [List.flatMap_append, List.append_assoc, List.flatMap_singleton] at h
    have hlast : answers s (8 * tx.length) 8 = wireBits b :=
      answers_of_slave (by rw [h, List.drop_left' (flatMap_wireBits_length tx)])
    rw [List.length_append, List.length_singleton, answerBytes_succ, ih h, Nat.zero_add, hlast, byteOf_wireBits]

/-- Settles O16: writing leaves the slave's answers alone, and the read gets their bytes (`answerBytes_echo`). -/
theorem echoRoundTrip : Obligations.EchoRoundTrip := fun s tx rest ho ha htx hs => by
  have hrx : answerBytes ({ s with tx := tx }.sent (writeEvents tx)) 0 tx.length = tx := answerBytes_echo hs
  have hread := runPrims_readBits (s := { s with tx := tx }.sent (writeEvents tx)) ho ha (List.length_pos_iff.2 htx)
  rw [hrx, crcMatches_eq_decide htx] at hread
  rw [runPrims_append, runPrims_writeBits ho ha htx, andThen_next]
  refine ⟨_, hread, rfl, ?_, decide_eq_true_iff⟩
  exact (congrArg (List.drop _) hs).trans (List.drop_left' (flatMap_wireBits_length tx))

end Sys2Proof.Machine
end

section
/-! SUPPORT. The CRC8 laws, for every table, and the check of the last byte (42_crc8.md R76 to R78). -/

namespace Sys2Proof.Machine

@[simp] theorem crc8With_nil (T : Byte → Byte) : crc8With T [] = 0 := rfl

/-- One byte more is one table lookup more (R76). -/
theorem crc8With_append_singleton (T : Byte → Byte) (xs : List Byte) (b : Byte) :
    crc8With T (xs ++ [b]) = T (crc8With T xs ^^^ b) :=
  List.foldl_concat ..

/-- Folding a list's own CRC8 after it looks up entry 0, whatever the table (R78): the running value cancels itself. -/
theorem crc8With_append_self (T : Byte → Byte) (xs : List Byte) :
    crc8With T (xs ++ [crc8With T xs]) = T 0 :=
  (crc8With_append_singleton ..).trans (congrArg T BitVec.xor_self)

/-- The check splits a list at its last byte (R77). -/
theorem crcMatches_append_singleton (xs : List Byte) (b : Byte) :
    crcMatches (xs ++ [b]) = true ↔ crc8 xs = b := by
  rw [crcMatches_eq_decide (List.append_ne_nil_of_right_ne_nil xs (List.cons_ne_nil b [])), decide_eq_true_iff,
    List.dropLast_concat, List.getLastD_concat]

/-- Settles O17: the laws hold for every table, so for the block's own, and the check is `crcMatches_append_singleton`. -/
theorem crcLaws : Obligations.CrcLaws :=
  ⟨fun T => ⟨crc8With_nil T, crc8With_append_singleton T, crc8With_append_self T⟩,
    crc8With_nil _, crc8With_append_singleton _, crc8With_append_self _, crcMatches_append_singleton⟩

end Sys2Proof.Machine
end

section
/-! SUPPORT. A command told forwards from its body: the record it queues or the count it returns, and so the commands that run
no transaction (43_dispatcher.md R79, R80, R83 to R90, R95 to R97). -/

namespace Sys2Proof.Machine

/-- Settles O5. -/
theorem stepRunsDecodedCommand : Obligations.StepRunsDecodedCommand :=
  fun _ _ _ ho hs ha hopen hh => step_write_copied ho hs ha hopen hh

/-! ### The end of a command (R79, R80) -/

/-- The push that ends a command is the rules' closed form, with room and without (R80). -/
theorem pushResult_eq_endWithRecord (r : Record) (s : State) : pushResult r s = endWithRecord r s := by
  by_cases hq : s.queue.length = 128
  · rw [pushResult_full r s hq, endWithRecord, if_pos hq]; rfl
  · rw [pushResult_room r s hq, endWithRecord, if_neg hq]

/-- A command that queues `g` ends, where its body does, with the record `g` stands for there. -/
theorem exec_push {cmd : Instr} {g : ResultForm} (hg : commandResult cmd = some g) {s u : State}
    (hu : (commandBody cmd).run s = .next u) : exec cmd s = .next (endWithRecord (resultRecord g u) u) := by
  rw [exec_eq, hu, hg, andThen_next, resultFinish, runFinish, pushResult_eq_endWithRecord]

/-- A command that queues nothing ends with the accepted length, whatever the queue. -/
theorem exec_count {cmd : Instr} (hg : commandResult cmd = none) {s u : State} (hu : (commandBody cmd).run s = .next u) :
    exec cmd s = .next { u with ret := .count u.cbLen, seq := .idle } := by
  rw [exec_eq, hu, hg]; rfl

/-! ### Line commands -/

theorem runPrims_line (o : LineOp) {s : State} (ho : s.lineOwned = true) :
    runPrims [.line o] s = .next { s with lineMode := o.mode, trace := s.trace ++ [o.event] } := by
  rw [runPrims_cons, runPrim, line_owned o s ho]; rfl

/-- Settles O18: the reset is `resetSequence`, the echo `exec_push`. -/
theorem commandReset : Obligations.CommandReset :=
  ⟨decode_encode_append (cmd := .r) rfl, fun s ho => exec_push (cmd := .r) rfl (resetSequence s ho)⟩

/-- Settles O19: one line operation, then `exec_push`. -/
theorem commandsDriveAndEcho : Obligations.CommandsDriveAndEcho :=
  ⟨fun rest => ⟨decode_encode_append (cmd := .h) rfl rest, decode_encode_append (cmd := .l) rfl rest,
      decode_encode_append (cmd := .i) rfl rest⟩,
    fun _ ho => ⟨exec_push (cmd := .h) rfl (runPrims_line .driveHigh ho), exec_push (cmd := .l) rfl (runPrims_line .driveLow ho),
      exec_push (cmd := .i) rfl (runPrims_line .release ho)⟩⟩

/-- Settles O20: one line operation, then `exec_count`. -/
theorem commandsDriveWithoutEcho : Obligations.CommandsDriveWithoutEcho :=
  ⟨fun rest => ⟨decode_encode_append (cmd := .zero) rfl rest, decode_encode_append (cmd := .one) rfl rest⟩,
    fun _ ho => ⟨exec_count (cmd := .zero) rfl (runPrims_line .driveLow ho),
      exec_count (cmd := .one) rfl (runPrims_line .driveHigh ho)⟩⟩

/-! ### Control commands -/

/-- Settles O21: the mode is set, then `exec_push`. -/
theorem commandsResendMode : Obligations.CommandsResendMode :=
  ⟨fun rest => ⟨decode_encode_append (cmd := .ecrc) rfl rest, decode_encode_append (cmd := .dcrc) rfl rest⟩,
    fun _ => ⟨exec_push (cmd := .ecrc) rfl rfl, exec_push (cmd := .dcrc) rfl rfl⟩⟩

/-- Settles O22. -/
theorem commandFlush : Obligations.CommandFlush :=
  ⟨decode_encode_append (cmd := .flush) rfl, rfl, fun _ => exec_count (cmd := .flush) rfl rfl⟩

/-- The masks of the bytes 1 to 3 have no bit below bit 8, so those bytes are zero for every length (R90). -/
theorem sizeBytes_eq (q : Nat) : sizeBytes q = [BitVec.ofNat 8 q, 0, 0, 0] := by
  have hlow : BitVec.ofNat 8 q &&& 255#8 = BitVec.ofNat 8 q := BitVec.and_allOnes
  simp [sizeBytes, BitVec.ofNat_and, hlow]

/-- Settles O23: the body of `SIZE` is empty, and its record is `sizeBytes_eq`. -/
theorem commandSize : Obligations.CommandSize :=
  ⟨decode_encode_append (cmd := .size) rfl, fun s _ => sizeBytes_eq s.queue.length ▸ exec_push (cmd := .size) rfl rfl⟩

/-- Settles O24: an input is no match exactly when no token is there (`decode_eq_noMatch_iff`). -/
theorem commandNoMatch : Obligations.CommandNoMatch :=
  ⟨rfl, rfl, rfl, rfl, rfl, rfl, by decide, fun _ => decode_eq_noMatch_iff, fun _ => exec_count (cmd := .noMatch) rfl rfl⟩

end Sys2Proof.Machine
end

section
/-! SUPPORT. The lead-in of a transaction and the retry loop, told forwards: where an attempt ends, where the next one goes on
from, and so where the loop stops (43_dispatcher.md R81, R82, R91 to R94). -/

namespace Sys2Proof.Machine

/-! ### The lead-in -/

theorem sends_reset : Sends resetOps resetEvents := fun s ho _ => resetSequence s ho

/-- Reset, then the bytes `tx`: what every transaction starts with (R91 to R94). -/
theorem runPrims_reset_write {s : State} {tx : List Byte} (ho : s.lineOwned = true) (ha : s.atomic = false) (htx : tx ≠ []) :
    runPrims (resetOps ++ writeBitsOps tx) s = .next ({ s with tx := tx }.sent (resetEvents ++ writeEvents tx)) := by
  rw [runPrims_append, sends_reset s ho ha, andThen_next, runPrims_writeBits (s := s.sent resetEvents) ho ha htx,
    ← State.sent_sent]
  rfl

/-- The lead-in of a checked read: reset, the bytes `tx`, a wait (R91, R93). -/
abbrev leadOps (tx : List Byte) (wait : Nat) : List Prim := resetOps ++ writeBitsOps tx ++ [.delay wait]

/-- The whole lead-in, with its wait. -/
theorem runPrims_lead {s : State} {tx : List Byte} (wait : Nat) (ho : s.lineOwned = true) (ha : s.atomic = false)
    (htx : tx ≠ []) : runPrims (leadOps tx wait) s = .next ({ s with tx := tx }.sent (leadEvents tx wait)) := by
  rw [leadOps, runPrims_append, runPrims_reset_write ho ha htx, andThen_next, runPrims_cons, runPrim, State.delay_sent]
  rfl

theorem leadEvents_length (tx : List Byte) (wait : Nat) : (leadEvents tx wait).length = 5 + 49 * tx.length + 1 := by
  rw [leadEvents, List.length_append, List.length_append, writeEvents_length]
  rfl

/-! ### Where the loop stops (R82) -/

/-- Some attempt is the last one: the first valid one, or the last allowed. -/
theorem exists_stopsAt (s : State) (count : Nat) : ∃ n, stopsAt s count n := by
  have hmax : 1 ≤ maxAttempts s := (maxAttempts_bounds s).1
  have hex : ∃ n, 1 ≤ n ∧ (crcMatches (attemptBytes s count n) = true ∨ n = maxAttempts s) := ⟨_, hmax, .inr rfl⟩
  obtain ⟨hpos, hstop⟩ := Nat.find_spec hex
  refine ⟨Nat.find hex, hpos, Nat.find_min' hex ⟨hmax, .inr rfl⟩, fun j hj hlt => ?_, hstop⟩
  exact Bool.eq_false_iff.2 fun hvalid => Nat.find_min hex hlt ⟨hj, .inl hvalid⟩

/-- With `A j` the state after attempt `j`, the loop entered for attempt `j` ends in `A n` when `n` is the first attempt with a
valid CRC or the last one allowed. -/
theorem attemptLoop_stops {body : List Prim} {A : Nat → State} {n : Nat}
    (hnext : ∀ j, 1 ≤ j → ∃ v, runPrims retryOps (A j) = .next v ∧ runPrims body v = .next (A (j + 1)))
    (hfail : ∀ j, 1 ≤ j → j < n → (A j).crcOk = false) {left j : Nat} {v : State} (hv : runPrims body v = .next (A j))
    (hj : 1 ≤ j) (hjn : j ≤ n) (hn : n ≤ j + left) (hstop : (A n).crcOk = true ∨ n = j + left) :
    attemptLoop body left v = .next (A n) := by
  induction left generalizing j v with
  | zero =>
    obtain rfl : n = j := Nat.le_antisymm hn hjn
    exact hv
  | succ left ih =>
    rw [attemptLoop, hv, andThen_next]
    rcases Nat.eq_or_lt_of_le hjn with rfl | hlt
    · exact if_pos (hstop.resolve_right (by omega))
    · obtain ⟨w, hw, hbody⟩ := hnext j hj
      rw [hfail j hj hlt, if_neg Bool.false_ne_true, hw, andThen_next]
      exact ih hbody (by omega) hlt (by omega) (hstop.imp_right (by omega))

/-! ### The slave's answers after `n` draws -/

section
variable {s t : State} {n : Nat} (hslave : t.slave = s.slave.drop n) (hdraws : t.draws = s.draws + n)
include hslave hdraws

theorem answers_drop (off m : Nat) : answers t off m = answers s (n + off) m := by
  simp [answers, slaveAnswer_drop s t n _ hslave hdraws, Nat.add_assoc]

theorem answerBytes_drop (off m : Nat) : answerBytes t off m = answerBytes s (n + off) m := by
  simp [answerBytes, answers_drop hslave hdraws, Nat.add_assoc]

theorem readEvents_drop (off m : Nat) : readEvents t off m = readEvents s (n + off) m := by
  rw [readEvents, readEvents, answers_drop hslave hdraws]

end

/-! ### One attempt, and the next -/

/-- What an attempt sends before its read (R81). -/
def attemptLead (scope : RetryScope) (lead : List Event) : List Event :=
  match scope with
  | .wholeTransaction => lead
  | .readOnly => []

/-- What is sent once, before the first attempt (R81). -/
def onceLead (scope : RetryScope) (lead : List Event) : List Event :=
  match scope with
  | .wholeTransaction => []
  | .readOnly => lead

theorem retryEvents_eq (scope : RetryScope) (s : State) (lead : List Event) (count n : Nat) :
    retryEvents scope s lead count n = onceLead scope lead ++ attemptEvents s (attemptLead scope lead) count n := by
  cases scope <;> rfl

/-- An attempt ends as the first of its state would, but that it keeps its own number. When only the read is repeated, the bytes
`tx` were sent before. -/
theorem runPrims_attempt (scope : RetryScope) {v : State} {tx : List Byte} (wait : Nat) {count : Nat}
    (ho : v.lineOwned = true) (ha : v.atomic = false) (htx : tx ≠ []) (hc : 1 ≤ count) (hsent : scope = .readOnly → v.tx = tx) :
    runPrims (attemptOps scope (leadOps tx wait) count) v =
      .next { afterAttempts v tx count 1 (attemptLead scope (leadEvents tx wait) ++ readEvents v 0 count) with
        attempt := v.attempt } := by
  cases scope with
  | wholeTransaction =>
    have hread := runPrims_readBits (s := { v with tx := tx }.sent (leadEvents tx wait)) ho ha hc
    rw [attemptOps, runPrims_append, runPrims_lead wait ho ha htx, andThen_next, hread]
    simp only [afterAttempts, attemptBytes, Nat.mul_one, Nat.sub_self, Nat.mul_zero, ← List.append_assoc]
    rfl
  | readOnly =>
    obtain rfl := hsent rfl
    rw [attemptOps, runPrims_readBits ho ha hc]
    simp [afterAttempts, attemptBytes, attemptLead]

/-- The state between two attempts: the sleep, and the next number (R82). -/
def State.retried (s : State) : State := { s with attempt := s.attempt + 1, trace := s.trace ++ [.sleep 1000] }

theorem runPrims_retry {s : State} (ha : s.atomic = false) : runPrims retryOps s = .next s.retried := by
  rw [retryOps, runPrims_cons, runPrim, sleep_free _ ha]
  rfl

/-- One attempt more, from the state after `j` attempts. -/
theorem afterAttempts_retried (s : State) (tx : List Byte) {count j : Nat} (hc : 1 ≤ count) (ev ew : List Event) :
    { afterAttempts (afterAttempts s tx count j ev).retried tx count 1 ew with
      attempt := (afterAttempts s tx count j ev).retried.attempt } =
      afterAttempts s tx count (j + 1) (ev ++ .sleep 1000 :: ew) := by
  have hbytes : attemptBytes (afterAttempts s tx count j ev).retried count 1 = attemptBytes s count (j + 1) :=
    answerBytes_drop (s := s) rfl rfl _ _
  have hbit : slaveAnswer (afterAttempts s tx count j ev).retried (8 * count * 1 - 1) =
      slaveAnswer s (8 * count * (j + 1) - 1) := by
    rw [slaveAnswer_drop s _ (8 * count * j) _ rfl rfl]
    congr 1
    rw [Nat.mul_add]
    omega
  rw [afterAttempts, hbytes, hbit]
  simp [State.retried, afterAttempts, Nat.mul_add, Nat.add_assoc]

theorem attemptEvents_succ (s : State) (each : List Event) {count j : Nat} (hj : 1 ≤ j) :
    attemptEvents s each count (j + 1) =
      attemptEvents s each count j ++ .sleep 1000 :: (each ++ readEvents s (8 * count * j) count) := by
  obtain ⟨j, rfl⟩ := Nat.exists_eq_add_of_le' hj
  simp [attemptEvents]

/-! ### The checked read (R81, R82) -/

section
variable (scope : RetryScope) {s : State} {tx : List Byte} (wait : Nat) {count : Nat} (ho : s.lineOwned = true)
  (ha : s.atomic = false) (htx : tx ≠ []) (hc : 1 ≤ count)
include ho ha htx

/-- What runs once: the lead-in when only the read is repeated, and the number of the first attempt. -/
theorem runPrims_once : ∃ m x, (scope = .readOnly → x = tx) ∧
    runPrims (leadOnce scope (leadOps tx wait) ++ [.firstAttempt]) s =
      .next { s with lineMode := m, tx := x, attempt := 1, trace := s.trace ++ onceLead scope (leadEvents tx wait) } := by
  cases scope with
  | wholeTransaction => exact ⟨s.lineMode, s.tx, nofun, by rw [onceLead, List.append_nil]; rfl⟩
  | readOnly =>
    refine ⟨.input, tx, fun _ => rfl, ?_⟩
    rw [leadOnce, runPrims_append, runPrims_lead wait ho ha htx]
    rfl

include hc

/-- The once-only part and the first attempt end in the state after one attempt. -/
theorem runPrims_firstAttempt : ∃ v,
    runPrims (leadOnce scope (leadOps tx wait) ++ [.firstAttempt]) s = .next v ∧
    runPrims (attemptOps scope (leadOps tx wait) count) v =
      .next (afterAttempts s tx count 1 (retryEvents scope s (leadEvents tx wait) count 1)) := by
  obtain ⟨m, x, hsent, hv⟩ := runPrims_once scope wait ho ha htx
  refine ⟨_, hv, ?_⟩
  rw [runPrims_attempt scope wait (by exact ho) (by exact ha) htx hc hsent, retryEvents_eq]
  simp only [afterAttempts, attemptEvents, List.append_assoc]
  rfl

/-- The sleep and one attempt more end in the state after that attempt. -/
theorem runPrims_nextAttempt {j : Nat} (hj : 1 ≤ j) : ∃ v,
    runPrims retryOps (afterAttempts s tx count j (retryEvents scope s (leadEvents tx wait) count j)) = .next v ∧
    runPrims (attemptOps scope (leadOps tx wait) count) v =
      .next (afterAttempts s tx count (j + 1) (retryEvents scope s (leadEvents tx wait) count (j + 1))) := by
  refine ⟨_, runPrims_retry (by simpa using ha), ?_⟩
  rw [runPrims_attempt scope wait (by exact ho) (by exact ha) htx hc fun _ => rfl, afterAttempts_retried s tx hc,
    readEvents_drop (s := s) rfl rfl, retryEvents_eq, retryEvents_eq, attemptEvents_succ s _ hj, List.append_assoc]
  rfl

end

/-- Settles O25: the first attempt, then one attempt after another, until the loop stops (`attemptLoop_stops`). -/
theorem retryPolicy : Obligations.RetryPolicy := by
  refine ⟨exists_stopsAt, fun scope s tx wait count n ho ha htx hc ⟨hpos, hmax, hfail, hstop⟩ => ?_⟩
  obtain ⟨v, hv, hbody⟩ := runPrims_firstAttempt scope wait ho ha htx hc
  rw [checkedRead, hv, andThen_next]
  have hallowed : 1 + (maxAttempts s - 1) = maxAttempts s := by have := maxAttempts_bounds s; omega
  refine attemptLoop_stops (A := fun j => afterAttempts s tx count j (retryEvents scope s (leadEvents tx wait) count j))
    (fun _ hj => runPrims_nextAttempt scope wait ho ha htx hc hj) (fun j hj hjn => ?_) hbody le_rfl hpos ?_ ?_
  · rw [afterAttempts_crcOk]; exact hfail j hj hjn
  · rw [hallowed]; exact hmax
  · rw [hallowed, afterAttempts_crcOk]; exact hstop

end Sys2Proof.Machine
end

section
/-! SUPPORT. The transactions, told forwards from the lead-in and the checked read; and the statements over every command: it
completes, what it returns, and that a full queue takes only its record (43_dispatcher.md R79, R80, R91 to R94). -/

namespace Sys2Proof.Machine

/-! ### Transactions without a read -/

theorem runPrims_wsOps {s : State} (p : List Byte) (ho : s.lineOwned = true) (ha : s.atomic = false) :
    runPrims (wsOps p) s =
      .next ({ s with tx := romWriteScratchpad ++ p.take 3 }.sent (leadEvents (romWriteScratchpad ++ p.take 3) 600)) :=
  runPrims_lead 600 ho ha (List.cons_ne_nil _ _)

theorem runPrims_ctOps {s : State} (ho : s.lineOwned = true) (ha : s.atomic = false) :
    runPrims ctOps s = .next ({ s with tx := romConvert }.sent (resetEvents ++ writeEvents romConvert)) :=
  runPrims_reset_write ho ha (List.cons_ne_nil _ _)

/-- Settles O27: a payload of at most three bytes is sent whole. -/
theorem commandWriteScratchpad : Obligations.CommandWriteScratchpad := by
  refine ⟨decode_tokWs_append, fun s p ho ha hp => ⟨?_, ?_⟩⟩
  · have hbody := runPrims_wsOps p ho ha
    rw [List.take_of_length_le hp] at hbody
    exact exec_count (cmd := .ws p) rfl hbody
  · rw [leadEvents_length, List.length_append]; rfl

/-- Settles O29: the lead-in without a wait, then `exec_push`. -/
theorem commandConvert : Obligations.CommandConvert := by
  refine ⟨decode_encode_append (cmd := .ct) rfl, fun s ho ha => ⟨?_, ?_⟩⟩
  · rw [List.append_assoc]
    exact exec_push (cmd := .ct) rfl (runPrims_ctOps ho ha)
  · rw [List.length_append, writeEvents_length]; rfl

/-! ### Transactions with a checked read -/

/-- A checked read under the block's own scope, of a command's lead-in and count (R81, R82). -/
theorem checkedRead_stopsAt {s : State} (tx : List Byte) (wait : Nat) {count n : Nat} (ho : s.lineOwned = true)
    (ha : s.atomic = false) (htx : tx ≠ []) (hc : 1 ≤ count) (hn : stopsAt s count n) :
    (Body.checked (leadOps tx wait) count).run s =
      .next (afterAttempts s tx count n (attemptEvents s (leadEvents tx wait) count n)) :=
  retryPolicy.2 .wholeTransaction s tx wait count n ho ha htx hc hn

theorem run_ra {s : State} {n : Nat} (ho : s.lineOwned = true) (ha : s.atomic = false) (hn : stopsAt s 8 n) :
    (commandBody .ra).run s = .next (afterAttempts s [0x33] 8 n (attemptEvents s (leadEvents [0x33] 500) 8 n)) :=
  checkedRead_stopsAt [0x33] 500 ho ha (by decide) (by decide) hn

theorem run_rs {s : State} {n : Nat} (ho : s.lineOwned = true) (ha : s.atomic = false) (hn : stopsAt s 9 n) :
    (commandBody .rs).run s =
      .next (afterAttempts s [0xCC, 0xBE] 9 n (attemptEvents s (leadEvents [0xCC, 0xBE] 600) 9 n)) :=
  checkedRead_stopsAt [0xCC, 0xBE] 600 ho ha (by decide) (by decide) hn

/-- One attempt's events: the lead-in's, then the read's (R91, R93). -/
theorem attemptEvents_one_length (s : State) (tx : List Byte) (wait count : Nat) :
    (attemptEvents s (leadEvents tx wait) count 1).length = 5 + 49 * tx.length + 1 + (1 + 48 * count + 1) := by
  rw [attemptEvents, List.length_append, leadEvents_length, readEvents_length]

/-- Settles O26: the eight bytes received are the whole of the last attempt. -/
theorem commandReadAddress : Obligations.CommandReadAddress := by
  refine ⟨decode_encode_append (cmd := .ra) rfl, fun s n ho ha hn => ?_,
    fun s => ⟨exists_stopsAt s 8, attemptEvents_one_length s [0x33] 500 8⟩⟩
  have hwhole : (attemptBytes s 8 n).take 8 = attemptBytes s 8 n := List.take_of_length_le (answerBytes_length s _ 8).le
  have hexec := exec_push (cmd := .ra) rfl (run_ra ho ha hn)
  rwa [resultRecord, afterAttempts_rx, hwhole] at hexec

/-- Settles O28: of the nine bytes received the first eight are queued. -/
theorem commandReadScratchpad : Obligations.CommandReadScratchpad :=
  ⟨decode_encode_append (cmd := .rs) rfl, fun _ _ ho ha hn => exec_push (cmd := .rs) rfl (run_rs ho ha hn),
    fun s => ⟨exists_stopsAt s 9, attemptEvents_one_length s [0xCC, 0xBE] 600 9⟩⟩

/-! ### Every command -/

/-- With the line owned and no section held, every body runs to its end. -/
theorem commandBody_completes (cmd : Instr) {s : State} (ho : s.lineOwned = true) (ha : s.atomic = false) :
    ∃ u, (commandBody cmd).run s = .next u := by
  cases cmd with
  | r => exact ⟨_, resetSequence s ho⟩
  | ra =>
    obtain ⟨n, hn⟩ := exists_stopsAt s 8
    exact ⟨_, run_ra ho ha hn⟩
  | rs =>
    obtain ⟨n, hn⟩ := exists_stopsAt s 9
    exact ⟨_, run_rs ho ha hn⟩
  | ws p => exact ⟨_, runPrims_wsOps p ho ha⟩
  | ct => exact ⟨_, runPrims_ctOps ho ha⟩
  | h => exact ⟨_, runPrims_line .driveHigh ho⟩
  | l => exact ⟨_, runPrims_line .driveLow ho⟩
  | i => exact ⟨_, runPrims_line .release ho⟩
  | zero => exact ⟨_, runPrims_line .driveLow ho⟩
  | one => exact ⟨_, runPrims_line .driveHigh ho⟩
  | _ => exact ⟨_, rfl⟩

/-- Settles O30: the body completes, and the last step always does. -/
theorem everyCommandCompletes : Obligations.EveryCommandCompletes := fun cmd s ho ha => by
  obtain ⟨u, hu⟩ := commandBody_completes cmd ho ha
  have hexec : exec cmd s = .next (runFinish (resultFinish (commandResult cmd)) u) := by rw [exec_eq, hu]; rfl
  obtain ⟨-, -, -, -, hidle, -⟩ := exec_frame hexec
  exact ⟨_, hexec, hidle⟩

theorem exists_commandResult {cmd : Instr} (hp : pushesResult cmd = true) : ∃ g, commandResult cmd = some g :=
  Option.isSome_iff_exists.1 (pushesResult_eq cmd ▸ hp)

/-- A command that queues a result is its body, which leaves the queue and the length alone, then the end with one record. -/
theorem exec_push_next {cmd : Instr} (hp : pushesResult cmd = true) {s t : State} (h : exec cmd s = .next t) :
    ∃ u bs, (commandBody cmd).run s = .next u ∧ u.queue = s.queue ∧ u.cbLen = s.cbLen ∧ t = endWithRecord (recordOf bs) u := by
  obtain ⟨u, hu, rfl⟩ := exec_next h
  have hqueue : u.queue = s.queue :=
    commandBody_same (x := .queue) (by cases cmd <;> simp_all [commandWrites, pushesResult]) hu
  obtain ⟨-, hlen⟩ := commandBody_same (buffer_not_written cmd) hu
  obtain ⟨g, hg⟩ := exists_commandResult hp
  obtain ⟨bs, hbs⟩ : ∃ bs, resultRecord g u = recordOf bs := by cases g <;> exact ⟨_, rfl⟩
  refine ⟨u, bs, hu, hqueue, hlen, ?_⟩
  rw [hg, resultFinish, runFinish, pushResult_eq_endWithRecord, hbs]

/-- A command that queues nothing returns the accepted length. -/
theorem exec_count_ret {cmd : Instr} (hp : pushesResult cmd = false) {s t : State} (h : exec cmd s = .next t) :
    t.ret = .count s.cbLen := by
  obtain ⟨u, hu, rfl⟩ := exec_next h
  obtain ⟨-, hlen⟩ := commandBody_same (buffer_not_written cmd) hu
  have hg : commandResult cmd = none := by simpa [pushesResult_eq] using hp
  rw [hg, ← hlen]; rfl

/-- Settles O31: a command that queues ends in `endWithRecord`, with room or without; another leaves the queue alone. -/
theorem returnValueAndOneRecord : Obligations.ReturnValueAndOneRecord := by
  intro cmd s t h
  cases hp : pushesResult cmd with
  | false =>
    exact ⟨by simpa using exec_count_ret hp h, fun hf => .inl (exec_queue_same hf hp h)⟩
  | true =>
    obtain ⟨u, bs, -, hqueue, hlen, rfl⟩ := exec_push_next hp h
    by_cases hfull : s.queue.length = 128
    · obtain ⟨hq, hr⟩ := endWithRecord_full (recordOf bs) u (hqueue ▸ hfull)
      exact ⟨by rw [hr, if_pos ⟨rfl, hfull⟩], fun _ => .inl (hq.trans hqueue)⟩
    · obtain ⟨hq, hr⟩ := endWithRecord_room (recordOf bs) u (hqueue ▸ hfull)
      exact ⟨by rw [hr, if_neg fun hc => hfull hc.2, hlen], fun _ => .inr ⟨_, recordOf_wf bs, hqueue ▸ hq, rfl, hfull⟩⟩

end Sys2Proof.Machine
end

section
/-! SUPPORT. No body of a command reads the queue: run on another queue it does the same, so a full queue loses a record and
nothing else (43_dispatcher.md R80; 60_exceptions.md R111). -/

namespace Sys2Proof.Machine

/-- The state with another queue. -/
def State.withQueue (q : List Record) (s : State) : State := { s with queue := q }

/-- Run on another queue, `f` ends in the same state with that queue. -/
def QueueBlind (f : State → StepResult) : Prop :=
  ∀ s t q, f s = .next t → f (s.withQueue q) = .next (t.withQueue q)

theorem QueueBlind.andThen {f g : State → StepResult} (hf : QueueBlind f) (hg : QueueBlind g) :
    QueueBlind fun s => andThen (f s) g := fun s t q h => by
  obtain ⟨u, hu, h⟩ := andThen_eq_next.1 h
  exact andThen_eq_next.2 ⟨_, hf s u q hu, hg u t q h⟩

theorem queueBlind_sample : QueueBlind sample := fun s t q h => by
  obtain ⟨ho, -⟩ := sample_next h
  have hdraw : afterDraw (s.withQueue q) = (afterDraw s).withQueue q := by
    unfold afterDraw State.withQueue; cases s.lineMode <;> rfl
  rw [sample, if_pos ho] at h
  cases h
  rw [sample, if_pos (show (s.withQueue q).lineOwned = true from ho), hdraw]
  rfl

/-- Every primitive step but `flush` is blind to the queue. -/
theorem queueBlind_runPrim {p : Prim} (hp : p ≠ .flush) : QueueBlind (runPrim p) := fun s t q h => by
  cases p with
  | line o => obtain ⟨ho, rfl⟩ := line_next h; exact line_owned o (s.withQueue q) ho
  | sleep ms => obtain ⟨ha, rfl⟩ := sleep_next h; exact sleep_free ms (s := s.withQueue q) ha
  | atomicBegin => obtain ⟨ha, rfl⟩ := atomicBegin_next h; exact atomicBegin_free (s := s.withQueue q) ha
  | atomicEnd => obtain ⟨ha, rfl⟩ := atomicEnd_next h; exact atomicEnd_held (s := s.withQueue q) ha
  | sample => exact queueBlind_sample s t q h
  | checkCrc => obtain ⟨hrx, rfl⟩ := checkCrc_next h; exact checkCrc_nonempty (s.withQueue q) hrx
  | load bytes => rw [runPrim, load_eq] at h; cases h; exact load_eq bytes (s.withQueue q)
  | refuse e => cases h
  | flush => exact absurd rfl hp
  | _ => cases h; rfl

theorem queueBlind_runPrims {ps : List Prim} (h : .flush ∉ ps) : QueueBlind (runPrims ps) := by
  induction ps with
  | nil => intro s t q hs; cases hs; rfl
  | cons p ps ih =>
    rw [List.mem_cons, not_or] at h
    exact (queueBlind_runPrim (Ne.symm h.1)).andThen (ih h.2)

theorem queueBlind_attemptLoop {body : List Prim} (h : .flush ∉ body) (left : Nat) : QueueBlind (attemptLoop body left) := by
  induction left with
  | zero => exact queueBlind_runPrims h
  | succ left ih =>
    refine (queueBlind_runPrims h).andThen fun s t q hs => ?_
    cases hc : s.crcOk with
    | true =>
      rw [hc] at hs; cases hs
      exact if_pos hc
    | false =>
      rw [hc] at hs
      have hretry : QueueBlind (runPrims retryOps) := queueBlind_runPrims (by decide)
      exact (if_neg fun hok => Bool.false_ne_true (hc.symm.trans hok)).trans (hretry.andThen ih s t q hs)

/-- A body none of whose sequences flushes is blind to the queue. -/
theorem queueBlind_run {b : Body} (h : ∀ ps ∈ b.parts, .flush ∉ ps) : QueueBlind b.run := by
  cases b with
  | straight ps => exact queueBlind_runPrims (h ps (by simp [Body.parts]))
  | checked lead count =>
    have honce : .flush ∉ leadOnce Config.retryScope lead ++ [.firstAttempt] := h _ (by simp [Body.parts])
    have hattempt : .flush ∉ attemptOps Config.retryScope lead count := h _ (by simp [Body.parts])
    exact fun s => ((queueBlind_runPrims honce).andThen (queueBlind_attemptLoop hattempt (maxAttempts s - 1))) s

theorem flush_notMem_commandBody {cmd : Instr} (hp : pushesResult cmd = true) :
    ∀ ps ∈ (commandBody cmd).parts, .flush ∉ ps := fun ps hps hm => by
  have hqueue : .queue ∈ commandWrites cmd := commandBody_writes cmd ps hps _ hm .queue (by simp [Prim.writes])
  cases cmd <;> simp [commandWrites, pushesResult] at hp hqueue

/-- Settles O32: the body does the same on both queues, and only its end differs. -/
theorem queueFullUndoesNothing : Obligations.QueueFullUndoesNothing := by
  intro cmd s u hp hfull h
  obtain ⟨g, hg⟩ := exists_commandResult hp
  obtain ⟨v, bs, hv, hempty, -, rfl⟩ := exec_push_next hp h
  have hbody : (commandBody cmd).run s = .next (v.withQueue s.queue) :=
    queueBlind_run (flush_notMem_commandBody hp) { s with queue := [] } v s.queue hv
  rw [exec_push hg hbody, endWithRecord, if_pos (show (v.withQueue s.queue).queue.length = 128 from hfull), endWithRecord,
    if_neg (by simp [hempty])]
  rfl

end Sys2Proof.Machine
end

section
/-! SUPPORT. The result queue by itself: one push, one pop, and runs of them (44_result_queue.md R98, R99, R101). -/

namespace Sys2Proof.Machine

/-! ### One push, one pop (R98, R99) -/

theorem pushQueue_full {q : List Record} (h : q.length = 128) (r : Record) : pushQueue r q = (false, q) := if_pos h

theorem pushQueue_room {q : List Record} (h : q.length < 128) (r : Record) : pushQueue r q = (true, q ++ [r]) :=
  if_neg h.ne

@[simp] theorem popQueue_nil : popQueue [] = (none, []) := rfl

@[simp] theorem popQueue_cons (r : Record) (q : List Record) : popQueue (r :: q) = (some r, q) := rfl

/-! ### Runs of pushes and of pops (R101) -/

@[simp] theorem pushAll_nil (q : List Record) : pushAll [] q = (true, q) := rfl

theorem pushAll_cons (r : Record) (rs q : List Record) :
    pushAll (r :: rs) q = ((pushQueue r q).1 && (pushAll rs (pushQueue r q).2).1, (pushAll rs (pushQueue r q).2).2) := rfl

theorem popTimes_succ (n : Nat) (q : List Record) :
    popTimes (n + 1) q = ((popQueue q).1 :: (popTimes n (popQueue q).2).1, (popTimes n (popQueue q).2).2) := rfl

/-- Records that have room all go in, in order, behind the ones already held. -/
theorem pushAll_room {rs q : List Record} (h : q.length + rs.length ≤ 128) : pushAll rs q = (true, q ++ rs) := by
  induction rs generalizing q with
  | nil => simp
  | cons r rs ih =>
    rw [List.length_cons] at h
    have hrest : pushAll rs (q ++ [r]) = (true, q ++ [r] ++ rs) := ih (by simp; omega)
    rw [pushAll_cons, pushQueue_room (by omega), hrest, List.append_assoc]; rfl

/-- Pushing one list behind another is pushing the first, then the second on the queue that leaves. -/
theorem pushAll_append (xs ys q : List Record) :
    pushAll (xs ++ ys) q = ((pushAll xs q).1 && (pushAll ys (pushAll xs q).2).1, (pushAll ys (pushAll xs q).2).2) := by
  induction xs generalizing q with
  | nil => simp
  | cons x xs ih => rw [List.cons_append, pushAll_cons, ih, pushAll_cons, Bool.and_assoc]

/-- As many pops as there are records in front answer those records, oldest first, and leave the rest. -/
theorem popTimes_length_append (rs q : List Record) : popTimes rs.length (rs ++ q) = (rs.map some, q) := by
  induction rs with
  | nil => rfl
  | cons r rs ih => rw [List.length_cons, popTimes_succ, List.cons_append, popQueue_cons, ih, List.map_cons]

/-! ### Settled -/

/-- Settles O36: the two branches of a push, and a pop on each shape of queue. -/
theorem pushAndPop : Obligations.PushAndPop :=
  ⟨fun r _ h => pushQueue_full h r, fun r _ h => pushQueue_room h r, popQueue_nil, popQueue_cons⟩

/-- Settles O37: with room all pushes append and pops undo them; the 129th push meets the full queue. -/
theorem queueIsFifo : Obligations.QueueIsFifo := by
  have hfill : ∀ rs : List Record, rs.length ≤ 128 → pushAll rs [] = (true, rs) := fun rs h =>
    pushAll_room (q := []) (by simpa using h)
  refine ⟨fun rs h => ⟨hfill rs h, ?_⟩, fun rs r h => ?_⟩
  · simpa using popTimes_length_append rs []
  · rw [pushAll_append, hfill rs h.le, pushAll_cons, pushQueue_full h]; rfl

end Sys2Proof.Machine
end

section
/-! SUPPORT. The four host calls told forwards, case by case, and so the step each of them is from the idle position
(45_host_interface.md R104 to R108; 60_exceptions.md R111). -/

namespace Sys2Proof.Machine

/-! ### The session (R104 to R106) -/

theorem hostOpen_busy {s : State} (h : s.sessionOpen = true) :
    hostOpen s = { s with ret := .error .sessionBusy, seq := .idle } := if_pos h

theorem hostOpen_free {s : State} (h : s.sessionOpen = false) :
    hostOpen s = { s with sessionOpen := true, ret := .ok, seq := .idle } := if_neg (Bool.not_eq_true _ ▸ h)

theorem hostRelease_eq (s : State) : hostRelease s = { s with sessionOpen := false, ret := .ok, seq := .idle } := rfl

theorem startCall_noSession {c : HostCall} {s : State} (ha : s.atomic = false) (hopen : s.sessionOpen = false)
    (hc : needsSession c = true) : startCall c s = .fault .noSession := by
  rw [startCall, if_neg (by simp [ha]), if_pos (by simp [hc, hopen])]

/-- Settles O39: `open` needs no session, and its step is the branch of the flag. -/
theorem openSession : Obligations.OpenSession := by
  intro _ _ ho hs ha hh
  rw [step_idle_call (c := .openSession) ho hs ha nofun hh, runCall]
  constructor
  · intro hopen
    rw [hostOpen_busy, hs]
    exact hopen
  · intro hopen
    rw [hostOpen_free, hs]
    exact hopen

/-- Settles O40: `release` needs no session and has one branch. -/
theorem releaseSession : Obligations.ReleaseSession := by
  intro _ _ ho hs ha hh
  rw [step_idle_call (c := .releaseSession) ho hs ha nofun hh, runCall, hostRelease_eq, hs]

/-- Settles O43: a write and a read are the calls that need a session. -/
theorem noMoveWithoutSession : Obligations.NoMoveWithoutSession := by
  intro s c rest ho hs ha hopen hh hc
  have hneeds : needsSession c = true := by
    rcases hc with ⟨bytes, fails, rfl⟩ | ⟨capacity, fails, rfl⟩ <;> rfl
  rw [step_idle_move ho hs hh]
  exact startCall_noSession (s := { s with host := rest }) ha hopen hneeds

/-! ### A read (R108) -/

theorem hostRead_empty (capacity : Nat) (fails : Bool) {s : State} (hq : s.queue = []) :
    hostRead capacity fails s = { s with ret := .empty, seq := .idle } := by
  simp [hostRead, hq, returnWith]

/-- A read whose copy fails has popped its record already (R108). -/
theorem hostRead_failed (capacity : Nat) {s : State} {r : Record} {q : List Record} (hq : s.queue = r :: q) :
    hostRead capacity true s = { s with queue := q, ret := .error .copyFault, seq := .idle } := by
  rw [hostRead, hq]; rfl

/-- Settles O42: an empty queue, a failed copy, and the copy of `step_read_oldest`. -/
theorem readReturnsOldestRecord : Obligations.ReadReturnsOldestRecord := by
  intro s capacity fails rest ho hs ha hopen hh
  have hstep : step s = .next (hostRead capacity fails { s with host := rest, seq := .busy (.read capacity fails) 0 }) :=
    step_idle_call ho hs ha (fun _ => hopen) hh
  refine ⟨fun hq => ⟨?_, rfl⟩, fun r q hq => ⟨?_, ?_⟩⟩
  · rw [hstep, hostRead_empty, hs]
    exact hq
  · rintro rfl
    rw [hstep, hostRead_failed (r := r) (q := q), hs]
    exact hq
  · rintro rfl
    exact step_read_oldest ho hs ha hopen hh hq

/-! ### A write (R107) -/

/-- The step of an admitted write whose copy fails changes the call's result and nothing else (R107, R111). -/
theorem step_write_failed {s : State} {bytes : List Byte} {rest : List HostEvent} (ho : s.lineOwned = true)
    (hs : s.seq = .idle) (ha : s.atomic = false) (hopen : s.sessionOpen = true)
    (hh : s.host = .call (.write bytes true) :: rest) :
    step s = .next { s with host := rest, ret := .error .copyFault } := by
  rw [step_idle_call ho hs ha (fun _ => hopen) hh, runCall, hostWrite_failed, hs]

section
variable (bytes : List Byte) (fails : Bool) (rest : List HostEvent) (s : State)

/-- The copied bytes stand at their own offsets (R107). -/
theorem cellGet_afterCopy_inside {a : Nat} (h : a < min bytes.length 512) :
    bytes[a]? = some (cellGet (afterCopy bytes fails rest s).cb a) := by
  have hput := cellGet_cellsPut_inside (bytes.take 512) s.cb 0 a (by rw [List.length_take]; omega)
  rwa [List.getElem?_take_of_lt (by omega), Nat.zero_add] at hput

/-- Beyond the copied bytes the buffer is as it was (R107). -/
theorem cellGet_afterCopy_outside {a : Nat} (h : min bytes.length 512 ≤ a) :
    cellGet (afterCopy bytes fails rest s).cb a = cellGet s.cb a :=
  cellGet_cellsPut_outside (bytes.take 512) s.cb 0 a (.inr (by rw [List.length_take]; omega))

end

/-- Every command ends with the accepted length or with QueueFull (R79, R80). -/
theorem exec_ret {cmd : Instr} {s t : State} (h : exec cmd s = .next t) :
    t.ret = .count s.cbLen ∨ t.ret = .error .queueFull := by
  obtain ⟨hret, -⟩ := returnValueAndOneRecord cmd s t h
  split at hret
  · exact .inr hret
  · exact .inl hret

/-- Settles O41: the command completes from the state after the copy and leaves the buffer alone. -/
theorem writeCopiesOrFaults : Obligations.WriteCopiesOrFaults := by
  intro s bytes rest ho hs ha hopen
  refine ⟨step_write_failed ho hs ha hopen, fun hh => ?_⟩
  obtain ⟨t, ht, -⟩ := everyCommandCompletes (decode (bytes.take 512)) (afterCopy bytes false rest s) ho ha
  obtain ⟨hcb, hlen, -⟩ := commandFrame _ _ t ht
  refine ⟨t, (step_write_copied ho hs ha hopen hh).trans ht, hlen, fun a h => ?_, fun a h => ?_, exec_ret ht⟩
  · rw [hcb]; exact cellGet_afterCopy_inside bytes false rest s h
  · rw [hcb]; exact cellGet_afterCopy_outside bytes false rest s h

end Sys2Proof.Machine
end

section
/-! SUPPORT. The kinds of the call outcomes (60_exceptions.md R110): which kinds an error has, which outcome has the kind
QueueEmpty, and the kind no outcome has. -/

namespace Sys2Proof.Machine

/-- An error's kind is one of the three host-visible errors of R110. -/
theorem errorKind_cases (e : ErrorKind) :
    errorKind e = .sessionBusy ∨ errorKind e = .queueFull ∨ errorKind e = .copyFault := by
  cases e with
  | sessionBusy => exact .inl rfl
  | queueFull => exact .inr (.inl rfl)
  | copyFault => exact .inr (.inr rfl)

theorem errorKind_ne_queueEmpty (e : ErrorKind) : errorKind e ≠ .queueEmpty := by
  rcases errorKind_cases e with h | h | h <;> simp [h]

theorem errorKind_ne_crcMismatch (e : ErrorKind) : errorKind e ≠ .crcMismatch := by
  rcases errorKind_cases e with h | h | h <;> simp [h]

/-- Only a read of an empty queue has the kind QueueEmpty (R108, R110). -/
theorem resultKind_eq_queueEmpty_iff (c : CallResult) : resultKind c = .queueEmpty ↔ c = .empty := by
  cases c with
  | error e => simp [resultKind, errorKind_ne_queueEmpty]
  | none | ok | count | data | empty => simp [resultKind]

/-- A CRC mismatch stays inside the retry loop: no call returns it (R110). -/
theorem resultKind_ne_crcMismatch (c : CallResult) : resultKind c ≠ .crcMismatch := by
  cases c with
  | error e => exact errorKind_ne_crcMismatch e
  | none | ok | count | data | empty => simp [resultKind]

theorem crcStatus_eq_crcMismatch_iff (s : State) : crcStatus s = .crcMismatch ↔ s.crcOk = false := by
  cases h : s.crcOk <;> simp [crcStatus, h]

/-- Settles O52: the codes and the named outcomes by their definitions, the rest by the kinds an outcome can have. -/
theorem statusKindsAndCodes : Obligations.StatusKindsAndCodes := by
  refine ⟨rfl, rfl, rfl, rfl, rfl, rfl, rfl, rfl, rfl, rfl, rfl, fun _ => rfl, fun _ => ⟨rfl, rfl⟩,
    resultKind_ne_crcMismatch, fun c hc => ?_, crcStatus_eq_crcMismatch_iff⟩
  rw [(resultKind_eq_queueEmpty_iff c).mp hc]
  rfl

end Sys2Proof.Machine
end

section
/-! SUPPORT. The line mode on entry: a line operation overwrites it, so what begins with a reset never sees it; and the teardown,
after which there is no step (70_reset_and_hazards.md R123, R130). -/

namespace Sys2Proof.Machine

/-- Settles O45: the step is the teardown, and without an owned line there is no step (`step_unowned`). -/
theorem teardownEndsTheMachine : Obligations.TeardownEndsTheMachine := fun _ _ ho hs hh =>
  ⟨_, step_idle_move ho hs hh, rfl, rfl, step_unowned rfl⟩

/-- The outcome does not depend on the line mode the block is in. -/
def ModeBlind (f : State → StepResult) : Prop := ∀ s m, f { s with lineMode := m } = f s

theorem ModeBlind.andThen {f : State → StepResult} (hf : ModeBlind f) (g : State → StepResult) :
    ModeBlind fun s => andThen (f s) g := fun s m => congrArg (Machine.andThen · g) (hf s m)

/-- A line operation overwrites the mode, so a sequence that begins with one is blind to it (R58 to R60). -/
theorem modeBlind_line_cons (o : LineOp) (ps : List Prim) : ModeBlind (runPrims (.line o :: ps)) := fun _ _ => rfl

/-- A reset begins with a line operation (R68). -/
theorem modeBlind_reset_append (ps : List Prim) : ModeBlind (runPrims (resetOps ++ ps)) := modeBlind_line_cons .driveLow _

/-- So does every lead-in, whatever follows it (R91, R93). -/
theorem modeBlind_lead_append (tx : List Byte) (wait : Nat) (ps : List Prim) : ModeBlind (runPrims (leadOps tx wait ++ ps)) := by
  rw [leadOps, List.append_assoc, List.append_assoc]
  exact modeBlind_reset_append _

theorem modeBlind_attemptLoop {body : List Prim} (h : ModeBlind (runPrims body)) : ∀ left, ModeBlind (attemptLoop body left)
  | 0 => h
  | _ + 1 => h.andThen _

/-- The first attempt of a checked read begins with the lead-in, and the mode does not decide how many are allowed (R81, R82). -/
theorem modeBlind_checked (tx : List Byte) (wait count : Nat) : ModeBlind (Body.checked (leadOps tx wait) count).run :=
  fun s m => modeBlind_attemptLoop (modeBlind_lead_append tx wait (readBitsOps count)) (maxAttempts s - 1)
    { s with attempt := 1 } m

theorem modeBlind_exec {cmd : Instr} (h : ModeBlind (commandBody cmd).run) : ModeBlind (exec cmd) := fun s m => by
  rw [exec_eq, exec_eq, h s m]

/-- Settles O34: every transaction begins with a reset, whose first line operation overwrites the mode. -/
theorem entryLineModeIrrelevant : Obligations.EntryLineModeIrrelevant := by
  rintro cmd s m (hmem | ⟨p, rfl⟩)
  · simp only [List.mem_cons, List.not_mem_nil, or_false] at hmem
    rcases hmem with rfl | rfl | rfl | rfl
    · exact modeBlind_exec (cmd := .r) (modeBlind_reset_append []) s m
    · exact modeBlind_exec (cmd := .ra) (modeBlind_checked _ _ _) s m
    · exact modeBlind_exec (cmd := .rs) (modeBlind_checked _ _ _) s m
    · exact modeBlind_exec (cmd := .ct) (modeBlind_reset_append _) s m
  · exact modeBlind_exec (cmd := .ws p) (modeBlind_reset_append _) s m

end Sys2Proof.Machine
end

section
/-! SUPPORT. Nominal durations: what the closed forms of the events take, where a transaction can run to its end at all, and so
the trace and the time of every command (70_reset_and_hazards.md R133). -/

namespace Sys2Proof.Machine

/-! ### The time of the closed forms -/

@[simp] theorem traceMicros_nil : traceMicros [] = 0 := rfl

@[simp] theorem traceMicros_cons (e : Event) (ev : List Event) : traceMicros (e :: ev) = eventMicros e + traceMicros ev := rfl

@[simp] theorem traceMicros_append (ev ew : List Event) : traceMicros (ev ++ ew) = traceMicros ev + traceMicros ew := by
  simp [traceMicros]

@[simp] theorem eventMicros_lineEvent (o : LineOp) : eventMicros o.event = 0 := by cases o <;> rfl

theorem traceMicros_resetEvents : traceMicros resetEvents = 1000 := rfl

theorem writeEvents_append (bs cs : List Byte) : writeEvents (bs ++ cs) = writeEvents bs ++ writeEvents cs :=
  List.flatMap_append

theorem traceMicros_leadEvents (tx : List Byte) (wait : Nat) :
    traceMicros (leadEvents tx wait) = 1000 + traceMicros (writeEvents tx) + wait := by
  rw [leadEvents, traceMicros_append, traceMicros_append, traceMicros_resetEvents]
  rfl

/-- A read slot takes 84 microseconds, whatever it samples (R72). -/
theorem traceMicros_readSlots (bs : List Bool) : traceMicros (bs.flatMap readSlotEvents) = 84 * bs.length := by
  induction bs with
  | nil => rfl
  | cons b bs ih =>
    have hslot : traceMicros (readSlotEvents b) = 84 := rfl
    rw [List.flatMap_cons, traceMicros_append, ih, hslot, List.length_cons]
    omega

theorem traceMicros_readEvents (s : State) (off count : Nat) : traceMicros (readEvents s off count) = 672 * count := by
  rw [readEvents, traceMicros_append, traceMicros_cons, traceMicros_readSlots, answers_length]
  simp only [traceMicros_cons, traceMicros_nil, eventMicros]
  omega

/-- `n` attempts: what is sent and the read in each, a second of sleep between two (R82). -/
theorem traceMicros_attemptEvents (s : State) (each : List Event) (count : Nat) {n : Nat} (hn : 1 ≤ n) :
    traceMicros (attemptEvents s each count n) = (traceMicros each + 672 * count) * n + 1000000 * (n - 1) := by
  induction n, hn using Nat.le_induction with
  | base => simp [attemptEvents, traceMicros_readEvents]
  | succ n hn ih =>
    rw [attemptEvents_succ s each hn, traceMicros_append, ih, traceMicros_cons, traceMicros_append, traceMicros_readEvents,
      Nat.mul_succ]
    simp only [eventMicros]
    omega

/-! ### Where a transaction can run to its end -/

theorem runPrims_line_owned {o : LineOp} {ps : List Prim} {s t : State} (h : runPrims (.line o :: ps) s = .next t) :
    s.lineOwned = true := by
  obtain ⟨u, hu, -⟩ := andThen_eq_next.1 h
  exact (line_next hu).1

/-- The first slot of a write opens an atomic section, so none is held (R65, R70). -/
theorem writeBitsOps_free {tx : List Byte} {s t : State} (h : runPrims (writeBitsOps tx) s = .next t) : s.atomic = false := by
  cases tx with
  | nil => cases h
  | cons b bs =>
    obtain ⟨u, hu, h⟩ := andThen_eq_next.1 h
    cases hu
    obtain ⟨v, hv, -⟩ := andThen_eq_next.1 h
    exact (atomicBegin_next hv).1

/-- A reset and a write run to their end only with the line owned and no section held. -/
theorem reset_write_ready {tx : List Byte} {s t : State} (h : runPrims (resetOps ++ writeBitsOps tx) s = .next t) :
    s.lineOwned = true ∧ s.atomic = false := by
  obtain ⟨u, hreset, hwrite⟩ := runPrims_append_next h
  have hsame : u.atomic = s.atomic := resetOps_writes.keepsAtomic (by decide) s u hreset
  exact ⟨runPrims_line_owned hreset, hsame ▸ writeBitsOps_free hwrite⟩

theorem lead_ready {tx : List Byte} {wait : Nat} {s t : State} (h : runPrims (leadOps tx wait) s = .next t) :
    s.lineOwned = true ∧ s.atomic = false := by
  obtain ⟨u, hu, -⟩ := runPrims_append_next h
  exact reset_write_ready hu

theorem attemptLoop_runs_body {body : List Prim} {left : Nat} {s t : State} (h : attemptLoop body left s = .next t) :
    ∃ u, runPrims body s = .next u := by
  cases left with
  | zero => exact ⟨t, h⟩
  | succ left =>
    obtain ⟨u, hu, -⟩ := andThen_eq_next.1 h
    exact ⟨u, hu⟩

/-- The first attempt of a checked read begins with the lead-in (R81). -/
theorem checked_ready {tx : List Byte} {wait count : Nat} {s t : State}
    (h : (Body.checked (leadOps tx wait) count).run s = .next t) : s.lineOwned = true ∧ s.atomic = false := by
  obtain ⟨u, hu, hloop⟩ := checkedRead_next h
  cases hu
  obtain ⟨v, hattempt⟩ := attemptLoop_runs_body hloop
  obtain ⟨w, hlead, -⟩ := runPrims_append_next hattempt
  exact lead_ready (s := { s with attempt := 1 }) hlead

/-! ### The trace of each command -/

/-- The last step of a command adds no event. -/
theorem exec_trace {cmd : Instr} {s t : State} (h : exec cmd s = .next t) :
    ∃ u, (commandBody cmd).run s = .next u ∧ t.trace = u.trace := by
  obtain ⟨u, q, r, hu, rfl, -⟩ := exec_next_eq h
  exact ⟨u, hu, rfl⟩

theorem run_line_trace {o : LineOp} {s u : State} (h : runPrims [.line o] s = .next u) : u.trace = s.trace ++ [o.event] := by
  cases (runPrims_line o (runPrims_line_owned h)).symm.trans h
  rfl

theorem run_r_trace {s u : State} (h : (commandBody .r).run s = .next u) : u.trace = s.trace ++ resetEvents := by
  cases (resetSequence s (runPrims_line_owned h)).symm.trans h
  rfl

theorem run_ct_trace {s u : State} (h : (commandBody .ct).run s = .next u) :
    u.trace = s.trace ++ (resetEvents ++ writeEvents romConvert) := by
  obtain ⟨ho, ha⟩ := reset_write_ready h
  cases (runPrims_ctOps ho ha).symm.trans h
  rfl

theorem run_ws_trace {p : List Byte} {s u : State} (h : (commandBody (.ws p)).run s = .next u) :
    u.trace = s.trace ++ leadEvents (romWriteScratchpad ++ p.take 3) 600 := by
  obtain ⟨ho, ha⟩ := lead_ready h
  cases (runPrims_wsOps p ho ha).symm.trans h
  rfl

theorem run_ra_trace {s u : State} (h : (commandBody .ra).run s = .next u) :
    ∃ n, stopsAt s 8 n ∧ u.trace = s.trace ++ attemptEvents s (leadEvents [0x33] 500) 8 n := by
  obtain ⟨ho, ha⟩ := checked_ready h
  obtain ⟨n, hn⟩ := exists_stopsAt s 8
  cases (run_ra ho ha hn).symm.trans h
  exact ⟨n, hn, afterAttempts_trace ..⟩

theorem run_rs_trace {s u : State} (h : (commandBody .rs).run s = .next u) :
    ∃ n, stopsAt s 9 n ∧ u.trace = s.trace ++ attemptEvents s (leadEvents [0xCC, 0xBE] 600) 9 n := by
  obtain ⟨ho, ha⟩ := checked_ready h
  obtain ⟨n, hn⟩ := exists_stopsAt s 9
  cases (run_rs ho ha hn).symm.trans h
  exact ⟨n, hn, afterAttempts_trace ..⟩

/-! ### The time of each command -/

/-- The lead-in of `WS` with a payload that is sent whole (R92). -/
theorem traceMicros_ws {p : List Byte} (hp : p.length ≤ 3) :
    traceMicros (leadEvents (romWriteScratchpad ++ p.take 3) 600) = 2796 + traceMicros (writeEvents p) := by
  have hrom : traceMicros (writeEvents romWriteScratchpad) = 1196 := rfl
  rw [List.take_of_length_le hp, traceMicros_leadEvents, writeEvents_append, traceMicros_append, hrom]
  omega

theorem traceMicros_ra (s : State) {n : Nat} (hn : 1 ≤ n) :
    traceMicros (attemptEvents s (leadEvents [0x33] 500) 8 n) = 7474 * n + 1000000 * (n - 1) := by
  have hlead : traceMicros (leadEvents [0x33] 500) = 2098 := rfl
  rw [traceMicros_attemptEvents s _ 8 hn, hlead]

theorem traceMicros_rs (s : State) {n : Nat} (hn : 1 ≤ n) :
    traceMicros (attemptEvents s (leadEvents [0xCC, 0xBE] 600) 9 n) = 8828 * n + 1000000 * (n - 1) := by
  have hlead : traceMicros (leadEvents [0xCC, 0xBE] 600) = 2780 := rfl
  rw [traceMicros_attemptEvents s _ 9 hn, hlead]

/-- Settles O35: the trace of each command's body, and what its events take. -/
theorem nominalDurations : Obligations.NominalDurations := by
  intro cmd s t h
  obtain ⟨u, hu, hend⟩ := exec_trace h
  rw [hend]
  cases cmd with
  | r => exact ⟨_, run_r_trace hu, by simp [traceMicros_resetEvents]⟩
  | ct =>
    have hwrite : traceMicros (writeEvents romConvert) = 1212 := rfl
    exact ⟨_, run_ct_trace hu, by simp [traceMicros_resetEvents, hwrite]⟩
  | ws p => exact ⟨_, run_ws_trace hu, by simpa using traceMicros_ws⟩
  | ra =>
    obtain ⟨n, hn, htrace⟩ := run_ra_trace hu
    exact ⟨_, htrace, by simpa using ⟨n, hn, traceMicros_ra s hn.1⟩⟩
  | rs =>
    obtain ⟨n, hn, htrace⟩ := run_rs_trace hu
    exact ⟨_, htrace, by simpa using ⟨n, hn, traceMicros_rs s hn.1⟩⟩
  | h | l | i | zero | one => exact ⟨_, run_line_trace hu, by simp⟩
  | ecrc | dcrc | flush | size | noMatch =>
    obtain ⟨-, htrace⟩ := commandBody_same (x := .wire) (by decide) hu
    exact ⟨[], by simpa using htrace, by simp⟩

end Sys2Proof.Machine
end
